-- ==== Sys2Proof/Word.lean ====
section
/-! DEFINITION. The word types of the MXW01 codec block (spec/00_scope.md R7, spec/30_encoding.md R70). -/

namespace Sys2Proof

/-- A byte, "8 bits, value 0..255" (R7). -/
abbrev Byte := BitVec 8

/-- The 32-bit `a`, `d` and `r` fields of R70. -/
abbrev Word := BitVec 32

/-- The 80-bit operation word `op` of R70. -/
abbrev OpWord := BitVec 80

end Sys2Proof
end

