-- ==== Sys2Proof/Config.lean ====
section
/-! DEFINITION. What an implementation of the block fixes (spec/00_scope.md R6) and the one free value
(spec/70_reset_and_hazards.md R201, spec/93_implementation_defined.md U1). -/

namespace Sys2Proof

/-- The five memory spaces of spec/20_memory.md R50. -/
inductive Space where
  | pay
  | frm
  | ntf
  | pix
  | pck
  deriving DecidableEq, Repr

/-- The four parameters the spec leaves to the implementation: "the model takes each as an argument" (R6).
They are data of the machine, so every statement about all states is a statement about all implementations. -/
structure Params where
  payloadMax : Nat
  notifMax   : Nat
  pixSize    : Nat
  packSize   : Nat
  deriving DecidableEq, Repr

/-- R6, column "constraint". -/
abbrev Params.legal (p : Params) : Prop :=
  (4 ≤ p.payloadMax ∧ p.payloadMax ≤ 65535) ∧
  (15 ≤ p.notifMax ∧ p.notifMax < 2 ^ 32) ∧
  (p.pixSize % 4 = 0 ∧ 4 ≤ p.pixSize ∧ p.pixSize ≤ 2 ^ 32 - 4) ∧
  (1 ≤ p.packSize ∧ p.packSize < 2 ^ 32)

/-- R6, column "suggested value". -/
def Params.suggested : Params where
  payloadMax := 65535
  notifMax   := 256
  pixSize    := 100661760
  packSize   := 12582720

/-- FREE VALUE (log entry 1): the byte that address `addr` of `space` holds at power-on number `powerUp`.
"Every byte has some value, but which is not defined, and it need not be the same on two power-ons" (R201);
"a free draw per byte, fixed once drawn" (U1). It has no body: nothing can be proved of its value. -/
opaque Config.powerOnByte : (powerUp : Nat) → (space : Space) → (addr : Nat) → Byte

end Sys2Proof
end

