-- ==== Sys2Proof/Syntax.lean ====
section
/-! DEFINITION. The instructions: one constructor per row of spec/opcode_table.json, with the operands that
spec/30_encoding.md R71 and R72 say the operation reads, and what the operation port is presented with. -/

namespace Sys2Proof

/-- One operation (R73) or one command-frame row (R77). The operands are those of R72, already cut to the bits
the operation uses; the space identifier and the register number stay numbers, since reserved ones are accepted
by the decoder and refused by the operation (R74). -/
inductive Instr where
  | nop
  | sysReset
  | regRd (rn : BitVec 8)
  | regWr (rn : BitVec 8) (v : Word)
  | memRd (sp : BitVec 8) (a : Word)
  | memWr (sp : BitVec 8) (a : Word) (b : Byte)
  | crcClr
  | crcByte (b : Byte)
  | crcBuf (sp : BitVec 8) (a : Word) (n : Word)
  | feBuild (cmd : Byte) (len : BitVec 16)
  | feCheck (n : Word)
  | fdParse (cmd : Byte) (n : Word)
  | fdNotify (n : Word)
  | htStart
  | htStep
  | htRun
  | htConvert
  | frameGetStatus (len : BitVec 16)
  | framePrintIntensity (len : BitVec 16)
  | frameQueryCount (len : BitVec 16)
  | framePrint (len : BitVec 16)
  | framePrintComplete (len : BitVec 16)
  | frameBatteryLevel (len : BitVec 16)
  | frameCancelPrint (len : BitVec 16)
  | framePrintDataFlush (len : BitVec 16)
  | frameGetPrintType (len : BitVec 16)
  | frameGetVersion (len : BitVec 16)
  deriving DecidableEq, Repr

/-- The ten command identifiers of R77, by name. -/
inductive CommandId where
  | getStatus
  | printIntensity
  | queryCount
  | print
  | printComplete
  | batteryLevel
  | cancelPrint
  | printDataFlush
  | getPrintType
  | getVersion
  deriving DecidableEq, Repr

/-- What the host presents at the operation port: an operation word (R70), or, for a FRAME row of the opcode
table, the frame's header and length bytes 0..5 (R75). The second form is the model's reading of those rows
(DESIGN CHOICE, log entry 2): the hardware's port takes operation words only, and the host asks for such a frame
with the `FE.BUILD` word. -/
inductive PortItem where
  | op (w : OpWord)
  | frame (bytes : List Byte)
  deriving DecidableEq, Repr

end Sys2Proof
end

