-- ==== Sys2Proof/WellFormed.lean ====
section
/-! DEFINITION. Which instructions use no reserved encoding (spec/30_encoding.md R74). An instruction that is not
well-formed still runs: it is refused with `E_SPACE` or `E_REG` (spec/60_exceptions.md R182). -/

namespace Sys2Proof

/-- The register numbers of spec/10_state.md R23. -/
def registerNumbers : List (BitVec 8) :=
  [0x00, 0x01] ++ [0x10, 0x11, 0x12, 0x13, 0x14, 0x15, 0x16] ++
  [0x20, 0x21, 0x22, 0x23, 0x24, 0x25, 0x26, 0x27, 0x28, 0x29, 0x2A, 0x2B]

/-- "`sp` values 5–255 are reserved" (R74). -/
abbrev spaceAllocated (sp : BitVec 8) : Prop := sp.toNat ≤ 4

/-- "Register numbers not in 10_state.md rule R23 are reserved" (R74). -/
abbrev registerAllocated (rn : BitVec 8) : Prop := rn ∈ registerNumbers

/-- R74: the instruction's space identifier or register number, where it has one, is not reserved. -/
def Instr.wellFormed : Instr → Bool
  | .regRd rn => decide (registerAllocated rn)
  | .regWr rn _ => decide (registerAllocated rn)
  | .memRd sp _ => decide (spaceAllocated sp)
  | .memWr sp _ _ => decide (spaceAllocated sp)
  | .crcBuf sp _ _ => decide (spaceAllocated sp)
  | .nop => true
  | .sysReset => true
  | .crcClr => true
  | .crcByte _ => true
  | .feBuild _ _ => true
  | .feCheck _ => true
  | .fdParse _ _ => true
  | .fdNotify _ => true
  | .htStart => true
  | .htStep => true
  | .htRun => true
  | .htConvert => true
  | .frameGetStatus _ => true
  | .framePrintIntensity _ => true
  | .frameQueryCount _ => true
  | .framePrint _ => true
  | .framePrintComplete _ => true
  | .frameBatteryLevel _ => true
  | .frameCancelPrint _ => true
  | .framePrintDataFlush _ => true
  | .frameGetPrintType _ => true
  | .frameGetVersion _ => true

end Sys2Proof
end

