-- ==== Sys2Proof/Decode.lean ====
section
/-! DEFINITION. The decoder, total on anything presented and rejecting by name, and the encoder
(spec/30_encoding.md R70 to R77). -/

namespace Sys2Proof

/-- Why the decoder rejects what is presented. -/
inductive DecodeError where
  /-- the selector is one of the 239 reserved ones (R74); the block refuses it with `E_OP` -/
  | reservedSelector (sel : BitVec 8)
  /-- the presented frame is not exactly the six header and length bytes (R75) -/
  | frameHeaderLength
  /-- a fixed header byte differs from R75 -/
  | frameHeaderByte
  /-- the identifier is not among the ten of R77, so the opcode table has no row for the frame -/
  | frameIdentifier (cmd : Byte)
  deriving DecidableEq, Repr

/-! The fields of an operation word (R70). -/

def opSel (w : OpWord) : BitVec 8 := w.extractLsb' 72 8
def opSp (w : OpWord) : BitVec 8 := w.extractLsb' 64 8
def opA (w : OpWord) : Word := w.extractLsb' 32 32
def opD (w : OpWord) : Word := w.extractLsb' 0 32

/-- `op = {sel, sp, a, d}` (R70). -/
def opWord (sel sp : BitVec 8) (a d : Word) : OpWord := sel ++ sp ++ a ++ d

/-- The low byte of a field: the rows "`a[7:0]`" and "`d[7:0]`" of R72. -/
def lowByte (v : Word) : Byte := v.extractLsb' 0 8

/-- The low half of a field: the row "`d[15:0]`" of R72. -/
def lowHalf (v : Word) : BitVec 16 := v.extractLsb' 0 16

/-- The selector map of R73 with the operands of R72. -/
def decodeOp (w : OpWord) : Except DecodeError Instr :=
  if opSel w = 0x00 then .ok .nop
  else if opSel w = 0x01 then .ok .sysReset
  else if opSel w = 0x08 then .ok (.regRd (lowByte (opA w)))
  else if opSel w = 0x09 then .ok (.regWr (lowByte (opA w)) (opD w))
  else if opSel w = 0x10 then .ok (.memRd (opSp w) (opA w))
  else if opSel w = 0x11 then .ok (.memWr (opSp w) (opA w) (lowByte (opD w)))
  else if opSel w = 0x20 then .ok .crcClr
  else if opSel w = 0x21 then .ok (.crcByte (lowByte (opD w)))
  else if opSel w = 0x22 then .ok (.crcBuf (opSp w) (opA w) (opD w))
  else if opSel w = 0x30 then .ok (.feBuild (lowByte (opA w)) (lowHalf (opD w)))
  else if opSel w = 0x31 then .ok (.feCheck (opD w))
  else if opSel w = 0x38 then .ok (.fdParse (lowByte (opA w)) (opD w))
  else if opSel w = 0x39 then .ok (.fdNotify (opD w))
  else if opSel w = 0x40 then .ok .htStart
  else if opSel w = 0x41 then .ok .htStep
  else if opSel w = 0x42 then .ok .htRun
  else if opSel w = 0x43 then .ok .htConvert
  else .error (.reservedSelector (opSel w))

/-- R77: the ten command identifiers. -/
def CommandId.code : CommandId → Byte
  | .getStatus => 0xA1
  | .printIntensity => 0xA2
  | .queryCount => 0xA7
  | .print => 0xA9
  | .printComplete => 0xAA
  | .batteryLevel => 0xAB
  | .cancelPrint => 0xAC
  | .printDataFlush => 0xAD
  | .getPrintType => 0xB0
  | .getVersion => 0xB1

/-- R77 read the other way: the named identifier a byte stands for. -/
def CommandId.ofCode (b : Byte) : Option CommandId :=
  if b = 0xA1 then some .getStatus
  else if b = 0xA2 then some .printIntensity
  else if b = 0xA7 then some .queryCount
  else if b = 0xA9 then some .print
  else if b = 0xAA then some .printComplete
  else if b = 0xAB then some .batteryLevel
  else if b = 0xAC then some .cancelPrint
  else if b = 0xAD then some .printDataFlush
  else if b = 0xB0 then some .getPrintType
  else if b = 0xB1 then some .getVersion
  else none

/-- The FRAME row of a command identifier. -/
def CommandId.row (c : CommandId) (len : BitVec 16) : Instr :=
  match c with
  | .getStatus => .frameGetStatus len
  | .printIntensity => .framePrintIntensity len
  | .queryCount => .frameQueryCount len
  | .print => .framePrint len
  | .printComplete => .framePrintComplete len
  | .batteryLevel => .frameBatteryLevel len
  | .cancelPrint => .frameCancelPrint len
  | .printDataFlush => .framePrintDataFlush len
  | .getPrintType => .frameGetPrintType len
  | .getVersion => .frameGetVersion len

/-- The header and length bytes 0..5 of a frame (R75, R52 item 1: the length is little-endian). -/
def frameHeader (cmd : Byte) (len : BitVec 16) : List Byte :=
  [0x22, 0x21, cmd, 0x00, len.extractLsb' 0 8, len.extractLsb' 8 8]

/-- The FRAME rows: bytes 0..3 are matched whole (R77, mask 0xFFFFFFFF), bytes 4..5 are the length (R76). -/
def decodeFrame (bytes : List Byte) : Except DecodeError Instr :=
  match bytes with
  | [h0, h1, cmd, h3, lo, hi] =>
    if h0 = 0x22 ∧ h1 = 0x21 ∧ h3 = 0x00 then
      match CommandId.ofCode cmd with
      | some c => .ok (c.row (hi ++ lo))
      | none => .error (.frameIdentifier cmd)
    else .error .frameHeaderByte
  | _ => .error .frameHeaderLength

/-- The instruction a presented item stands for. -/
def decode (item : PortItem) : Except DecodeError Instr :=
  match item with
  | .op w => decodeOp w
  | .frame bytes => decodeFrame bytes

/-- The encoder: the word of R73 with every field the operation does not read (R71) written as zero (R81), or
the header bytes of the FRAME row. -/
def encode (i : Instr) : PortItem :=
  match i with
  | .nop => .op (opWord 0x00 0 0 0)
  | .sysReset => .op (opWord 0x01 0 0 0)
  | .regRd rn => .op (opWord 0x08 0 (rn.setWidth 32) 0)
  | .regWr rn v => .op (opWord 0x09 0 (rn.setWidth 32) v)
  | .memRd sp a => .op (opWord 0x10 sp a 0)
  | .memWr sp a b => .op (opWord 0x11 sp a (b.setWidth 32))
  | .crcClr => .op (opWord 0x20 0 0 0)
  | .crcByte b => .op (opWord 0x21 0 0 (b.setWidth 32))
  | .crcBuf sp a n => .op (opWord 0x22 sp a n)
  | .feBuild cmd len => .op (opWord 0x30 0 (cmd.setWidth 32) (len.setWidth 32))
  | .feCheck n => .op (opWord 0x31 0 0 n)
  | .fdParse cmd n => .op (opWord 0x38 0 (cmd.setWidth 32) n)
  | .fdNotify n => .op (opWord 0x39 0 0 n)
  | .htStart => .op (opWord 0x40 0 0 0)
  | .htStep => .op (opWord 0x41 0 0 0)
  | .htRun => .op (opWord 0x42 0 0 0)
  | .htConvert => .op (opWord 0x43 0 0 0)
  | .frameGetStatus len => .frame (frameHeader 0xA1 len)
  | .framePrintIntensity len => .frame (frameHeader 0xA2 len)
  | .frameQueryCount len => .frame (frameHeader 0xA7 len)
  | .framePrint len => .frame (frameHeader 0xA9 len)
  | .framePrintComplete len => .frame (frameHeader 0xAA len)
  | .frameBatteryLevel len => .frame (frameHeader 0xAB len)
  | .frameCancelPrint len => .frame (frameHeader 0xAC len)
  | .framePrintDataFlush len => .frame (frameHeader 0xAD len)
  | .frameGetPrintType len => .frame (frameHeader 0xB0 len)
  | .frameGetVersion len => .frame (frameHeader 0xB1 len)

/-- What is presented for a word of spec/opcode_table.json: an 80-bit row is an operation word; a 32-bit row is
the prefix "over frame bytes 0..3 taken as a 32-bit number with byte 0 most significant", here with a length
field of zero. -/
def tableItem (nbits w : Nat) : PortItem :=
  if nbits = 32 then
    .frame [BitVec.ofNat 8 (w / 2 ^ 24), BitVec.ofNat 8 (w / 2 ^ 16), BitVec.ofNat 8 (w / 2 ^ 8), BitVec.ofNat 8 w, 0, 0]
  else .op (BitVec.ofNat 80 w)

/-- The instruction the decoder reads from a word numbered as spec/opcode_table.json numbers it. -/
def decodeTableWord (nbits w : Nat) : Option Instr :=
  match decode (tableItem nbits w) with
  | .ok i => some i
  | .error _ => none

end Sys2Proof
end

