-- ==== Sys2Proof/Machine/State.lean ====
section
/-! DEFINITION. The state of the block as plain data (spec/10_state.md, spec/20_memory.md R50), the reasons a step
can stop, and the state after power-on reset (spec/70_reset_and_hazards.md R200). -/

namespace Sys2Proof.Machine

/-- The registers of spec/10_state.md R23, by name; their numbers are in Machine/Operands.lean. -/
inductive Reg where
  | crcAcc
  | feFlen
  | htW
  | htH
  | htBpl
  | htMode
  | htX
  | htY
  | htState
  | ndKind
  | ndCmd
  | ndLen
  | ndFlags
  | ndBatt
  | ndTemp
  | ndStat
  | ndSdet
  | ndVerlo
  | ndVerhi
  | ndPtype
  | ndSucc
  deriving DecidableEq, Repr

/-- `HT_STATE` (R27): "3 never occurs" (R23). -/
inductive HtState where
  | idle
  | run
  | done
  deriving DecidableEq, Repr

/-- `ND_KIND` (R28): the codes 0 to 5. -/
inductive NdKind where
  | none
  | status
  | battery
  | version
  | complete
  | raw
  deriving DecidableEq, Repr

/-- The twelve `ND_*` registers (R23, R28). -/
structure NdRegs where
  kind  : NdKind
  cmd   : BitVec 8
  len   : BitVec 32
  /-- bit 0 `SHORT`, bit 1 `CMDV` -/
  flags : BitVec 2
  batt  : BitVec 8
  temp  : BitVec 8
  stat  : BitVec 8
  sdet  : BitVec 8
  verlo : BitVec 32
  verhi : BitVec 32
  ptype : BitVec 8
  succ  : BitVec 1
  deriving DecidableEq, Repr

/-- The register file of R23. -/
structure Regs where
  crcAcc  : BitVec 8
  feFlen  : BitVec 17
  htW     : BitVec 16
  htH     : BitVec 16
  htBpl   : BitVec 16
  htMode  : BitVec 8
  htX     : BitVec 16
  htY     : BitVec 16
  htState : HtState
  nd      : NdRegs
  deriving DecidableEq, Repr

/-- "all twelve ND_* registers <- 0" (R126), which is also their reset value (R200). -/
def NdRegs.zero : NdRegs where
  kind  := .none
  cmd   := 0
  len   := 0
  flags := 0
  batt  := 0
  temp  := 0
  stat  := 0
  sdet  := 0
  verlo := 0
  verhi := 0
  ptype := 0
  succ  := 0

/-- R200: the reset value of every register. -/
def Regs.reset : Regs where
  crcAcc  := 0
  feFlen  := 0
  htW     := 384
  htH     := 0
  htBpl   := 48
  htMode  := 0
  htX     := 0
  htY     := 0
  htState := .idle
  nd      := NdRegs.zero

/-- The written bytes of one memory space, addresses strictly rising. An address that is not listed holds no
byte written since power-on (log entry 1). -/
abbrev Memory := List Host.Cell

/-- The canonical form of a memory. -/
abbrev Memory.wf (m : Memory) : Prop := m.Pairwise (fun c d => c.1 < d.1)

/-- The five memories of R50. -/
structure Memories where
  pay : Memory
  frm : Memory
  ntf : Memory
  pix : Memory
  pck : Memory
  deriving DecidableEq, Repr

/-- The status codes of spec/60_exceptions.md R182; 0x08 to 0xFF are "never returned". -/
inductive Status where
  | ok
  | eOp
  | eSpace
  | eRange
  | eReg
  | eRo
  | eCfg
  | eState
  deriving DecidableEq, Repr

/-- The result word `res = {st, r}` of spec/30_encoding.md R70. -/
structure Result where
  st : Status
  r  : Word
  deriving DecidableEq, Repr

/-- The state of the machine. -/
structure State where
  /-- the registers of R23 -/
  regs    : Regs
  /-- the five memories of R50 -/
  mem     : Memories
  /-- the result word the port returned last; `none` before the first one (log entry 4) -/
  result  : Option Result
  /-- what the host presents next, first item first; empty when the port is free (MODEL's own, log entry 3) -/
  port    : List PortItem
  /-- the implementation's sizes (R6); no operation changes them (MODEL's own place for them, log entry 5) -/
  params  : Params
  /-- which power-on this is: the index of the free value `Config.powerOnByte` (MODEL's own, log entry 1) -/
  powerUp : Nat
  deriving DecidableEq, Repr

/-- Why the machine stops with a fault. -/
inductive Fault where
  /-- `HT.STEP` or `HT.RUN` in state RUN with a pixel outside the raster or a configuration that is not legal:
  R27's invariant excludes it and no run from reset meets it (log entry 6). Safe. -/
  | sequencerOutsideRaster
  deriving DecidableEq, Repr

/-- Why the machine refuses to give a step a meaning. -/
inductive Refusal where
  /-- an instruction without a meaning in this model; only an arm of `exec` may raise it. Safe. -/
  | notModelled (mnemonic : String)
  /-- the presented item is of the model's frame form but is no FRAME row of the opcode table; raised by the
  step (log entry 2). The hardware's port has no such form. Safe. -/
  | notAFrameRow
  deriving DecidableEq, Repr

/-- The state after power-on number `powerUp` of an implementation with sizes `p`: registers by R200, memories
with nothing written (R201), the port free. -/
def State.powerOn (p : Params) (powerUp : Nat) : State where
  regs    := Regs.reset
  mem     := { pay := [], frm := [], ntf := [], pix := [], pck := [] }
  result  := none
  port    := []
  params  := p
  powerUp := powerUp

/-- The machine right after power-on reset, with the suggested sizes of R6. -/
def State.reset : State := State.powerOn Params.suggested 0

end Sys2Proof.Machine
end

