-- ==== Sys2Proof/Machine/Ops.lean ====
section
/-! DEFINITION. The named operations over the memories, the port and the result word that every meaning is
written with. -/

namespace Sys2Proof.Machine

/-- What one step answers. -/
abbrev Answer := Host.Outcome State Fault Refusal

/-! ## Memory (spec/20_memory.md R50, R51, R54) -/

/-- The byte written last at an address, if any. -/
def Memory.byteAt : Memory → Nat → Option Byte
  | [], _ => none
  | (k, v) :: m, a => if a = k then some v else Memory.byteAt m a

/-- "A write changes exactly the addressed byte" (R54). -/
def Memory.write : Memory → Nat → Byte → Memory
  | [], a, b => [(a, b)]
  | (k, v) :: m, a, b =>
    if a < k then (a, b) :: (k, v) :: m
    else if a = k then (a, b) :: m
    else (k, v) :: Memory.write m a b

def Memories.get (ms : Memories) (sp : Space) : Memory :=
  match sp with
  | .pay => ms.pay
  | .frm => ms.frm
  | .ntf => ms.ntf
  | .pix => ms.pix
  | .pck => ms.pck

def Memories.set (ms : Memories) (sp : Space) (m : Memory) : Memories :=
  match sp with
  | .pay => { ms with pay := m }
  | .frm => { ms with frm := m }
  | .ntf => { ms with ntf := m }
  | .pix => { ms with pix := m }
  | .pck => { ms with pck := m }

/-- `size(sp)` of R50. -/
def spaceSize (p : Params) (sp : Space) : Nat :=
  match sp with
  | .pay => p.payloadMax
  | .frm => p.payloadMax + 8
  | .ntf => p.notifMax
  | .pix => p.pixSize
  | .pck => p.packSize

def State.size (s : State) (sp : Space) : Nat := spaceSize s.params sp

/-- What an address that nothing has written reads as: the free value of this power-on (R59, R201, U1). -/
def State.unwrittenByte (s : State) (sp : Space) (a : Nat) : Byte := Config.powerOnByte s.powerUp sp a

/-- `SP[a]`: "a read returns the value of the latest write to that byte ... (or the reset content, rule R59)"
(R57). -/
def State.readByte (s : State) (sp : Space) (a : Nat) : Byte :=
  (Memory.byteAt (s.mem.get sp) a).getD (s.unwrittenByte sp a)

/-- `SP[a] <- b`. -/
def State.writeByte (s : State) (sp : Space) (a : Nat) (b : Byte) : State :=
  { s with mem := s.mem.set sp (Memory.write (s.mem.get sp) a b) }

/-- `SP[a .. a+n)`, in ascending address order. -/
def State.readRange (s : State) (sp : Space) (a : Nat) : Nat → List Byte
  | 0 => []
  | n + 1 => s.readByte sp a :: s.readRange sp (a + 1) n

/-- Writes a byte sequence at `a`, `a+1`, .. in that order. -/
def State.writeRange (s : State) (sp : Space) (a : Nat) : List Byte → State
  | [] => s
  | b :: bs => (s.writeByte sp a b).writeRange sp (a + 1) bs

/-! ## The operation port (spec/30_encoding.md R70) -/

/-- The item the host presents and the state in which the block works on it. -/
def State.accept (s : State) : Option (PortItem × State) :=
  match s.port with
  | [] => none
  | item :: rest => some (item, { s with port := rest })

/-- Presents an item before everything the host was going to present. -/
def State.present (s : State) (item : PortItem) : State := { s with port := item :: s.port }

/-- `res <- {OK, r}`: the operation was carried out. -/
def State.finish (s : State) (r : Word) : Answer := .next { s with result := some { st := .ok, r := r } }

/-- `raise E_X` (R7), the one refusal mechanism of spec/60_exceptions.md R181: "the result word is
`{st = code, r = 0}` with `code ≠ 0`, and no register and no memory byte changes"; there is no trap entry to take
and "nothing to return from". -/
def State.refuse (s : State) (code : Status) : Answer := .next { s with result := some { st := code, r := 0 } }

/-- What becomes of a presented item that the decoder rejects: a reserved selector is refused with `E_OP` (R74);
the model's frame form of an item that is no FRAME row has no meaning (log entry 2). -/
def State.rejected (s : State) (e : DecodeError) : Answer :=
  match e with
  | .reservedSelector _ => s.refuse .eOp
  | .frameHeaderLength => .refused .notAFrameRow
  | .frameHeaderByte => .refused .notAFrameRow
  | .frameIdentifier _ => .refused .notAFrameRow

/-- The code of a status in `st` (R182). -/
def Status.code (st : Status) : BitVec 8 :=
  match st with
  | .ok => 0x00
  | .eOp => 0x01
  | .eSpace => 0x02
  | .eRange => 0x03
  | .eReg => 0x04
  | .eRo => 0x05
  | .eCfg => 0x06
  | .eState => 0x07

/-- The 40-bit result word as one value (R70). -/
def Result.word (res : Result) : BitVec 40 := res.st.code ++ res.r

end Sys2Proof.Machine
end

