-- ==== Sys2Proof/Machine/Operands.lean ====
section
/-! DEFINITION. The operands that name things: memory spaces (spec/20_memory.md R50) and registers
(spec/10_state.md R23), with every register's number, width, access right, read value and write. -/

namespace Sys2Proof.Machine

/-- R50, column `sp`; identifiers 5 to 255 are reserved. -/
def spaceOfId (sp : BitVec 8) : Option Space :=
  if sp = 0 then some .pay
  else if sp = 1 then some .frm
  else if sp = 2 then some .ntf
  else if sp = 3 then some .pix
  else if sp = 4 then some .pck
  else none

/-- R23, column "number". -/
def Reg.number (r : Reg) : BitVec 8 :=
  match r with
  | .crcAcc => 0x00
  | .feFlen => 0x01
  | .htW => 0x10
  | .htH => 0x11
  | .htBpl => 0x12
  | .htMode => 0x13
  | .htX => 0x14
  | .htY => 0x15
  | .htState => 0x16
  | .ndKind => 0x20
  | .ndCmd => 0x21
  | .ndLen => 0x22
  | .ndFlags => 0x23
  | .ndBatt => 0x24
  | .ndTemp => 0x25
  | .ndStat => 0x26
  | .ndSdet => 0x27
  | .ndVerlo => 0x28
  | .ndVerhi => 0x29
  | .ndPtype => 0x2A
  | .ndSucc => 0x2B

/-- The registers in the order of R23's table. -/
def allRegs : List Reg :=
  [.crcAcc, .feFlen] ++ [.htW, .htH, .htBpl, .htMode, .htX, .htY, .htState] ++
  [.ndKind, .ndCmd, .ndLen, .ndFlags, .ndBatt, .ndTemp, .ndStat, .ndSdet, .ndVerlo, .ndVerhi, .ndPtype, .ndSucc]

/-- The register with a number; "register numbers not listed are reserved" (R23). -/
def regOfNumber (rn : BitVec 8) : Option Reg := allRegs.find? (fun r => r.number = rn)

/-- R23, column "access": `true` for RW. -/
def Reg.writable (r : Reg) : Bool :=
  match r with
  | .htW => true
  | .htH => true
  | .htBpl => true
  | .htMode => true
  | .crcAcc => false
  | .feFlen => false
  | .htX => false
  | .htY => false
  | .htState => false
  | .ndKind => false
  | .ndCmd => false
  | .ndLen => false
  | .ndFlags => false
  | .ndBatt => false
  | .ndTemp => false
  | .ndStat => false
  | .ndSdet => false
  | .ndVerlo => false
  | .ndVerhi => false
  | .ndPtype => false
  | .ndSucc => false

/-- R23: `HT_STATE` is "0 IDLE, 1 RUN, 2 DONE". -/
def HtState.code (h : HtState) : BitVec 2 :=
  match h with
  | .idle => 0
  | .run => 1
  | .done => 2

/-- R28: the `ND_KIND` codes. -/
def NdKind.code (k : NdKind) : BitVec 8 :=
  match k with
  | .none => 0
  | .status => 1
  | .battery => 2
  | .version => 3
  | .complete => 4
  | .raw => 5

/-- "Every register is read with `REG.RD` as a 32-bit value with zeros above its width" (R23). -/
def Regs.read (g : Regs) (r : Reg) : Word :=
  match r with
  | .crcAcc => g.crcAcc.setWidth 32
  | .feFlen => g.feFlen.setWidth 32
  | .htW => g.htW.setWidth 32
  | .htH => g.htH.setWidth 32
  | .htBpl => g.htBpl.setWidth 32
  | .htMode => g.htMode.setWidth 32
  | .htX => g.htX.setWidth 32
  | .htY => g.htY.setWidth 32
  | .htState => g.htState.code.setWidth 32
  | .ndKind => g.nd.kind.code.setWidth 32
  | .ndCmd => g.nd.cmd.setWidth 32
  | .ndLen => g.nd.len
  | .ndFlags => g.nd.flags.setWidth 32
  | .ndBatt => g.nd.batt.setWidth 32
  | .ndTemp => g.nd.temp.setWidth 32
  | .ndStat => g.nd.stat.setWidth 32
  | .ndSdet => g.nd.sdet.setWidth 32
  | .ndVerlo => g.nd.verlo
  | .ndVerhi => g.nd.verhi
  | .ndPtype => g.nd.ptype.setWidth 32
  | .ndSucc => g.nd.succ.setWidth 32

/-- "storing the low `width` bits of `d` and ignoring the rest" (R23); the read-only registers take no write. -/
def Regs.write (g : Regs) (r : Reg) (v : Word) : Regs :=
  match r with
  | .htW => { g with htW := v.extractLsb' 0 16 }
  | .htH => { g with htH := v.extractLsb' 0 16 }
  | .htBpl => { g with htBpl := v.extractLsb' 0 16 }
  | .htMode => { g with htMode := v.extractLsb' 0 8 }
  | .crcAcc => g
  | .feFlen => g
  | .htX => g
  | .htY => g
  | .htState => g
  | .ndKind => g
  | .ndCmd => g
  | .ndLen => g
  | .ndFlags => g
  | .ndBatt => g
  | .ndTemp => g
  | .ndStat => g
  | .ndSdet => g
  | .ndVerlo => g
  | .ndVerhi => g
  | .ndPtype => g
  | .ndSucc => g

end Sys2Proof.Machine
end

