-- ==== Sys2Proof/Machine/Flags.lean ====
section
/-! DEFINITION. The result flags. "The block has no flags, condition codes or predicates" (spec/10_state.md R22):
these are the flag bits of the `FE.CHECK` result (spec/42_frame_codec.md R123) and of `ND_FLAGS` (R28). -/

namespace Sys2Proof.Machine

/-- One flag bit of a result byte. -/
def flagBit (set : Bool) (bit : Byte) : Byte := if set then bit else 0

/-- The flags of R123 for a frame of at least eight bytes: `F_HDR`, `F_RSV`, `F_LEN`, `F_CRC`, `F_TERM`. -/
def checkFlags (hdr rsv len crc term : Bool) : Byte :=
  flagBit hdr 0x02 ||| flagBit rsv 0x04 ||| flagBit len 0x08 ||| flagBit crc 0x10 ||| flagBit term 0x20

/-- `r` of `FE.CHECK` when `F_SHORT` is set: "then every other bit of `r` is 0" (R123). -/
def shortFrameResult : Word := 0x00000001

/-- `(L << 16) or (FRM[2] << 8) or fl` (R123). -/
def checkResult (len : BitVec 16) (cmd fl : Byte) : Word := len ++ cmd ++ fl

/-- `ND_FLAGS` (R28): bit 0 `SHORT`, bit 1 `CMDV`. -/
def ndFlags (short cmdv : Bool) : BitVec 2 := BitVec.ofBool cmdv ++ BitVec.ofBool short

end Sys2Proof.Machine
end

