-- ==== Sys2Proof/Machine/System.lean ====
section
/-! DEFINITION. The system, register and memory operations (spec/40_system_ops.md R100 to R105). -/

namespace Sys2Proof.Machine

/-- R100 `NOP`. -/
def execNop (s : State) : Answer := s.finish 0

/-- R101 `SYS.RESET`: every register to its reset value, "leaves all five memories unchanged". -/
def execSysReset (s : State) : Answer := State.finish { s with regs := Regs.reset } 0

/-- R102 `REG.RD rn`. -/
def execRegRd (rn : BitVec 8) (s : State) : Answer :=
  match regOfNumber rn with
  | none => s.refuse .eReg
  | some r => s.finish (s.regs.read r)

/-- R103 `REG.WR rn, v`: errors in the order `E_REG`, `E_RO`, `E_STATE`. -/
def execRegWr (rn : BitVec 8) (v : Word) (s : State) : Answer :=
  match regOfNumber rn with
  | none => s.refuse .eReg
  | some r =>
    if r.writable = false then s.refuse .eRo
    else if s.regs.htState = .run then s.refuse .eState
    else State.finish { s with regs := s.regs.write r v } 0

/-- R104 `MEM.RD sp, a`: errors in the order `E_SPACE`, `E_RANGE`. -/
def execMemRd (sp : BitVec 8) (a : Word) (s : State) : Answer :=
  match spaceOfId sp with
  | none => s.refuse .eSpace
  | some m =>
    if s.size m ≤ a.toNat then s.refuse .eRange
    else s.finish ((s.readByte m a.toNat).setWidth 32)

/-- R105 `MEM.WR sp, a, b`: errors in the order `E_SPACE`, `E_RANGE`. -/
def execMemWr (sp : BitVec 8) (a : Word) (b : Byte) (s : State) : Answer :=
  match spaceOfId sp with
  | none => s.refuse .eSpace
  | some m =>
    if s.size m ≤ a.toNat then s.refuse .eRange
    else (s.writeByte m a.toNat b).finish 0

end Sys2Proof.Machine
end

