-- ==== Sys2Proof/Machine/Crc.lean ====
section
/-! DEFINITION. The CRC unit (spec/41_crc.md). -/

namespace Sys2Proof.Machine

/-- R110: one bit step of the generator. -/
def crcShift (c : Byte) : Byte := if c.getLsbD 7 then (c <<< 1) ^^^ 0x07 else c <<< 1

/-- R111: absorbing one byte, "XOR it into the accumulator, then perform 8 iterations". -/
def crcByte (c b : Byte) : Byte :=
  crcShift (crcShift (crcShift (crcShift (crcShift (crcShift (crcShift (crcShift (c ^^^ b))))))))

/-- R112: `crc8(bytes) -> byte`, "start with accumulator 0". -/
def crc8 (bytes : List Byte) : Byte := bytes.foldl crcByte 0

/-- `CRC_ACC <- c`. -/
def State.setCrc (s : State) (c : Byte) : State := { s with regs.crcAcc := c }

/-- R114 `CRC.CLR`. -/
def execCrcClr (s : State) : Answer := (s.setCrc 0).finish 0

/-- R115 `CRC.BYTE b`. -/
def execCrcByte (b : Byte) (s : State) : Answer :=
  (s.setCrc (crcByte s.regs.crcAcc b)).finish ((crcByte s.regs.crcAcc b).setWidth 32)

/-- R116 `CRC.BUF sp, a, n`: `a + n` is "an unbounded sum, no 32-bit wrap". -/
def execCrcBuf (sp : BitVec 8) (a n : Word) (s : State) : Answer :=
  match spaceOfId sp with
  | none => s.refuse .eSpace
  | some m =>
    if s.size m < a.toNat + n.toNat then s.refuse .eRange
    else
      (s.setCrc (crc8 (s.readRange m a.toNat n.toNat))).finish
        ((crc8 (s.readRange m a.toNat n.toNat)).setWidth 32)

end Sys2Proof.Machine
end

