-- ==== Sys2Proof/Machine/FrameCodec.lean ====
section
/-! DEFINITION. The frame encoder and checker and the notification decoder (spec/42_frame_codec.md). -/

namespace Sys2Proof.Machine

/-! ## Frame encoder -/

/-- The frame bytes `f[0 .. 6+L)`: header, length and payload (R121). The payload has at most 65535 bytes. -/
def frameHead (cmd : Byte) (payload : List Byte) : List Byte :=
  frameHeader cmd (BitVec.ofNat 16 payload.length) ++ payload

/-- R121: `build_frame(cmd, p)`. -/
def buildFrame (cmd : Byte) (payload : List Byte) : List Byte :=
  frameHead cmd payload ++ [crc8 (frameHead cmd payload), 0xFF]

/-- R122: the effect of `FE.BUILD cmd, len`. -/
def State.buildFrame (s : State) (cmd : Byte) (len : BitVec 16) : Answer :=
  if s.params.payloadMax < len.toNat then s.refuse .eRange
  else
    let payload := s.readRange .pay 0 len.toNat
    let s1 := s.writeRange .frm 0 (Machine.buildFrame cmd payload)
    let s2 := s1.setCrc (crc8 (frameHead cmd payload))
    State.finish { s2 with regs.feFlen := BitVec.ofNat 17 (len.toNat + 8) } (BitVec.ofNat 32 (len.toNat + 8))

/-- R122 `FE.BUILD cmd, len`. -/
def execFeBuild (cmd : Byte) (len : BitVec 16) (s : State) : Answer := s.buildFrame cmd len

/-! ## Frame checker -/

/-- The length field `L = FRM[4] + 256*FRM[5]` (R76). -/
def lengthField (lo hi : Byte) : Nat := lo.toNat + 256 * hi.toNat

/-- The length field of what stands in FRM. -/
def State.frmLength (s : State) : Nat := lengthField (s.readByte .frm 4) (s.readByte .frm 5)

/-- `F_HDR`: `FRM[0] ≠ 0x22` or `FRM[1] ≠ 0x21` (R123). -/
def State.frmBadHeader (s : State) : Bool :=
  decide (s.readByte .frm 0 ≠ 0x22 ∨ s.readByte .frm 1 ≠ 0x21)

/-- `F_RSV`: `FRM[3] ≠ 0x00` (R123). -/
def State.frmBadReserved (s : State) : Bool := decide (s.readByte .frm 3 ≠ 0x00)

/-- The fresh CRC over `FRM[0 .. 6+L)` (R123). -/
def State.frmCrc (s : State) : Byte := crc8 (s.readRange .frm 0 (6 + s.frmLength))

/-- `F_CRC` when `F_LEN` is clear (R123). -/
def State.frmBadCrc (s : State) : Bool := decide (s.readByte .frm (6 + s.frmLength) ≠ s.frmCrc)

/-- `F_TERM` when `F_LEN` is clear (R123). -/
def State.frmBadTerm (s : State) : Bool := decide (s.readByte .frm (7 + s.frmLength) ≠ 0xFF)

/-- The result `r` of R123 with the given flags. -/
def State.checkResult (s : State) (fl : Byte) : Word :=
  Machine.checkResult (BitVec.ofNat 16 s.frmLength) (s.readByte .frm 2) fl

/-- R123 `FE.CHECK n`. -/
def execFeCheck (n : Word) (s : State) : Answer :=
  if s.size .frm < n.toNat then s.refuse .eRange
  else if n.toNat < 8 then s.finish shortFrameResult
  else if n.toNat ≠ s.frmLength + 8 then
    s.finish (s.checkResult (checkFlags s.frmBadHeader s.frmBadReserved true false false))
  else
    (s.setCrc s.frmCrc).finish
      (s.checkResult (checkFlags s.frmBadHeader s.frmBadReserved false s.frmBadCrc s.frmBadTerm))

/-! ## Notification decoder -/

/-- The least length of R126 for a command identifier; 0 for an identifier without a decode case. -/
def leastLength (cmd : Byte) : Nat :=
  if cmd = 0xA1 then 14
  else if cmd = 0xAB then 7
  else if cmd = 0xB1 then 15
  else if cmd = 0xAA then 7
  else 0

/-- Four notification bytes, "the lowest-indexed byte in bits 7:0" (R52 item 5). -/
def State.ntfWord (s : State) (i : Nat) : Word :=
  s.readByte .ntf (i + 3) ++ s.readByte .ntf (i + 2) ++ s.readByte .ntf (i + 1) ++ s.readByte .ntf i

/-- The twelve registers with nothing but `ND_CMD`, `ND_LEN` and `ND_FLAGS` filled in (R126). -/
def ndBase (cmd : Byte) (n : Word) (short cmdv : Bool) : NdRegs :=
  { NdRegs.zero with cmd := cmd, len := n, flags := ndFlags short cmdv }

/-- The fields of a notification that is long enough for its case (R126, R78). -/
def State.ndFields (s : State) (cmd : Byte) (base : NdRegs) : NdRegs :=
  if cmd = 0xA1 then
    { base with
      kind := .status, batt := s.readByte .ntf 9, temp := s.readByte .ntf 10,
      stat := s.readByte .ntf 12, sdet := s.readByte .ntf 13 }
  else if cmd = 0xAB then { base with kind := .battery, batt := s.readByte .ntf 6 }
  else if cmd = 0xB1 then
    { base with kind := .version, verlo := s.ntfWord 6, verhi := s.ntfWord 10, ptype := s.readByte .ntf 14 }
  else { base with kind := .complete, succ := if s.readByte .ntf 6 = 0x00 then 1 else 0 }

/-- `decode(cmd, n, cmdv)` of R126. -/
def State.decodeNtf (s : State) (cmd : Byte) (n : Word) (cmdv : Bool) : NdRegs :=
  if cmdv = true ∧ 0 < leastLength cmd ∧ leastLength cmd ≤ n.toNat then
    s.ndFields cmd (ndBase cmd n false cmdv)
  else
    let short := decide ((0 < leastLength cmd ∧ n.toNat < leastLength cmd) ∨ cmdv = false)
    { ndBase cmd n short cmdv with kind := .raw }

/-- Stores a decoded notification and returns `ND_KIND`. -/
def State.finishNd (s : State) (nd : NdRegs) : Answer :=
  State.finish { s with regs.nd := nd } (nd.kind.code.setWidth 32)

/-- R126 `FD.PARSE cmd, n`. -/
def execFdParse (cmd : Byte) (n : Word) (s : State) : Answer :=
  if s.params.notifMax < n.toNat then s.refuse .eRange
  else s.finishNd (s.decodeNtf cmd n true)

/-- R127 `FD.NOTIFY n`. -/
def execFdNotify (n : Word) (s : State) : Answer :=
  if s.params.notifMax < n.toNat then s.refuse .eRange
  else if 3 ≤ n.toNat then s.finishNd (s.decodeNtf (s.readByte .ntf 2) n true)
  else s.finishNd (s.decodeNtf 0x00 n false)

end Sys2Proof.Machine
end

