-- ==== Sys2Proof/Machine/Frames.lean ====
section
/-! DEFINITION. The FRAME rows of spec/opcode_table.json (spec/30_encoding.md R77). A frame is data, not an
operation: the table says of each row that it is "built by FE.BUILD (rule R122)", so the meaning of a row is that
build, of the row's command identifier and the length in the frame's bytes 4..5 (DESIGN CHOICE, log entry 2). -/

namespace Sys2Proof.Machine

/-- FRAME.GetStatus, identifier 0xA1. -/
def execFrameGetStatus (len : BitVec 16) (s : State) : Answer := s.buildFrame CommandId.getStatus.code len

/-- FRAME.PrintIntensity, identifier 0xA2. -/
def execFramePrintIntensity (len : BitVec 16) (s : State) : Answer := s.buildFrame CommandId.printIntensity.code len

/-- FRAME.QueryCount, identifier 0xA7. -/
def execFrameQueryCount (len : BitVec 16) (s : State) : Answer := s.buildFrame CommandId.queryCount.code len

/-- FRAME.Print, identifier 0xA9. -/
def execFramePrint (len : BitVec 16) (s : State) : Answer := s.buildFrame CommandId.print.code len

/-- FRAME.PrintComplete, identifier 0xAA. -/
def execFramePrintComplete (len : BitVec 16) (s : State) : Answer := s.buildFrame CommandId.printComplete.code len

/-- FRAME.BatteryLevel, identifier 0xAB. -/
def execFrameBatteryLevel (len : BitVec 16) (s : State) : Answer := s.buildFrame CommandId.batteryLevel.code len

/-- FRAME.CancelPrint, identifier 0xAC. -/
def execFrameCancelPrint (len : BitVec 16) (s : State) : Answer := s.buildFrame CommandId.cancelPrint.code len

/-- FRAME.PrintDataFlush, identifier 0xAD. -/
def execFramePrintDataFlush (len : BitVec 16) (s : State) : Answer := s.buildFrame CommandId.printDataFlush.code len

/-- FRAME.GetPrintType, identifier 0xB0. -/
def execFrameGetPrintType (len : BitVec 16) (s : State) : Answer := s.buildFrame CommandId.getPrintType.code len

/-- FRAME.GetVersion, identifier 0xB1. -/
def execFrameGetVersion (len : BitVec 16) (s : State) : Answer := s.buildFrame CommandId.getVersion.code len

end Sys2Proof.Machine
end

