-- ==== Sys2Proof/Machine/Halftone.lean ====
section
/-! DEFINITION. The halftone converter (spec/43_halftone.md). Arithmetic is on exact naturals and integers: "All
values are exact integers; nothing wraps" (R156). -/

namespace Sys2Proof.Machine

/-! ## The pixel arithmetic (R142 to R147) -/

/-- R142: `avg3(r, g, b) = floor((r + g + b) / 3)`. -/
def avg3 (r g b : Byte) : Nat := (r.toNat + g.toNat + b.toNat) / 3

/-- R142: `br = 255 − avg3(R,G,B)`, of the average. -/
def brightness (avg : Nat) : Nat := 255 - avg

/-- R143: `nv = 255 if br >= 128 else 0`. -/
def monoLevel (br : Nat) : Nat := if 128 ≤ br then 255 else 0

/-- R144: the nearest multiple of 16, ties upward, clamped to 255. -/
def grayLevel (br : Nat) : Nat := min (16 * ((br + 8) / 16)) 255

/-- R146: `err = br − nv`, signed. -/
def diffusionError (br nv : Nat) : Int := (br : Int) - (nv : Int)

/-- R147: `floor((err * w) / 16)`; Lean's integer division by a positive number rounds toward minus infinity. -/
def diffusionTerm (err : Int) (w : Nat) : Int := (err * (w : Int)) / 16

/-- R7: `clamp(v, 0, 255)`, as a byte. -/
def clampByte (v : Int) : Byte :=
  BitVec.ofNat 8 (if v < 0 then 0 else if 255 < v then 255 else v.toNat)

/-- R147: the four targets as (dx, dy, weight). -/
def diffusionTargets : List (Int × Nat × Nat) := [(1, 0, 7), (-1, 1, 3), (0, 1, 5), (1, 1, 1)]

/-! ## Configuration and sequencer -/

/-- `HT_MODE` values of R79: monochrome 0x00, grayscale 0x02. -/
def monoMode : BitVec 8 := 0x00
def grayMode : BitVec 8 := 0x02

/-- R140: the configuration is legal. -/
abbrev legalConfig (p : Params) (g : Regs) : Prop :=
  (g.htMode = monoMode ∨ g.htMode = grayMode) ∧
  (1 ≤ g.htW.toNat ∧ 1 ≤ g.htH.toNat) ∧
  (g.htMode = monoMode → g.htW.toNat % 8 = 0 ∧ g.htBpl.toNat = g.htW.toNat / 8) ∧
  (g.htMode = grayMode → g.htW.toNat % 2 = 0 ∧ g.htBpl.toNat = g.htW.toNat / 2) ∧
  (4 * g.htW.toNat * g.htH.toNat ≤ p.pixSize ∧ g.htBpl.toNat * g.htH.toNat ≤ p.packSize)

/-- R27's invariant of the state RUN: the next pixel lies in the raster, of a legal configuration. -/
abbrev sequencerInRaster (p : Params) (g : Regs) : Prop :=
  legalConfig p g ∧ g.htX.toNat < g.htW.toNat ∧ g.htY.toNat < g.htH.toNat

/-! ## The pixel step (R141 to R149) -/

/-- R141: the address of channel R of pixel (x, y); G and B follow it. -/
def State.pixelAddr (s : State) (x y : Nat) : Nat := 4 * (y * s.regs.htW.toNat + x)

/-- The average of pixel (x, y) as it stands in PIX (R142). -/
def State.pixelAvg (s : State) (x y : Nat) : Nat :=
  avg3 (s.readByte .pix (s.pixelAddr x y)) (s.readByte .pix (s.pixelAddr x y + 1))
    (s.readByte .pix (s.pixelAddr x y + 2))

/-- R147: `PIX[q] <- v; PIX[q+1] <- v; PIX[q+2] <- v`. -/
def State.setPixel (s : State) (x y : Nat) (v : Byte) : State :=
  s.writeRange .pix (s.pixelAddr x y) [v, v, v]

/-- `PCK[a] <- PCK[a] or v`. -/
def State.orPacked (s : State) (a : Nat) (v : Byte) : State :=
  s.writeByte .pck a (s.readByte .pck a ||| v)

/-- The quantised brightness of the configured mode (R143, R144). -/
def State.quantise (s : State) (br : Nat) : Nat :=
  if s.regs.htMode = grayMode then grayLevel br else monoLevel br

/-- R143: bit `x mod 8` of byte `y*BPL + floor(x/8)`, set when `nv > 127`. -/
def State.packMono (s : State) (x y nv : Nat) : State :=
  if 127 < nv then s.orPacked (y * s.regs.htBpl.toNat + x / 8) (BitVec.ofNat 8 (2 ^ (x % 8))) else s

/-- R144: the level `nv >> 4` shifted left by `s = 4 - 4*(x mod 2)`, into byte `y*BPL + floor(x/2)`. -/
def State.packGray (s : State) (x y nv : Nat) : State :=
  s.orPacked (y * s.regs.htBpl.toNat + x / 2) (BitVec.ofNat 8 (nv / 16 * 2 ^ (4 - 4 * (x % 2))))

/-- Packing in the configured mode. -/
def State.pack (s : State) (x y nv : Nat) : State :=
  if s.regs.htMode = grayMode then s.packGray x y nv else s.packMono x y nv

/-- R147 for one target: "skip out-of-range neighbor writes". -/
def State.diffuseTo (x y : Nat) (err : Int) (s : State) (t : Int × Nat × Nat) : State :=
  let nx : Int := (x : Int) + t.1
  let ny : Nat := y + t.2.1
  if 0 ≤ nx ∧ nx < (s.regs.htW.toNat : Int) ∧ ny < s.regs.htH.toNat then
    s.setPixel nx.toNat ny (clampByte ((s.pixelAvg nx.toNat ny : Int) - diffusionTerm err t.2.2))
  else s

/-- R147: the error goes to the four neighbours. -/
def State.diffuse (s : State) (x y : Nat) (err : Int) : State :=
  diffusionTargets.foldl (State.diffuseTo x y err) s

/-- R148: the next pixel in raster order. -/
def Regs.advance (g : Regs) : Regs :=
  if g.htX.toNat + 1 < g.htW.toNat then { g with htX := BitVec.ofNat 16 (g.htX.toNat + 1) }
  else
    { g with
      htX := 0, htY := BitVec.ofNat 16 (g.htY.toNat + 1),
      htState := if g.htY.toNat + 1 = g.htH.toNat then .done else g.htState }

/-- R149: `pixel_step` on pixel (`HT_X`, `HT_Y`). -/
def State.pixelStep (s : State) : State :=
  let x := s.regs.htX.toNat
  let y := s.regs.htY.toNat
  let br := brightness (s.pixelAvg x y)
  let nv := s.quantise br
  let s1 := (s.pack x y nv).diffuse x y (diffusionError br nv)
  { s1 with regs := s1.regs.advance }

/-- R153: `while HT_STATE = RUN : pixel_step`, at most `fuel` times. -/
def State.pixelSteps : (fuel : Nat) → State → State
  | 0, s => s
  | fuel + 1, s => if s.regs.htState = .run then State.pixelSteps fuel s.pixelStep else s

/-- R153: the number of pixels left, `W·H − (Y·W + X)`. -/
def Regs.pixelsLeft (g : Regs) : Nat :=
  g.htW.toNat * g.htH.toNat - (g.htY.toNat * g.htW.toNat + g.htX.toNat)

/-- The body of `HT.RUN`. -/
def State.runBody (s : State) : State := State.pixelSteps s.regs.pixelsLeft s

/-- The body of `HT.START` (R151): `PCK[0 .. BPL·H) <- 0`, the sequencer to pixel (0, 0), state RUN. -/
def State.startBody (s : State) : State :=
  let s1 := s.writeRange .pck 0 (List.replicate (s.regs.htBpl.toNat * s.regs.htH.toNat) 0)
  { s1 with regs := { s1.regs with htX := 0, htY := 0, htState := .run } }

/-! ## The operations -/

/-- R151 `HT.START`. -/
def execHtStart (s : State) : Answer :=
  if legalConfig s.params s.regs then s.startBody.finish 0 else s.refuse .eCfg

/-- R152 `HT.STEP`. -/
def execHtStep (s : State) : Answer :=
  if s.regs.htState ≠ .run then s.refuse .eState
  else if sequencerInRaster s.params s.regs then
    s.pixelStep.finish (s.pixelStep.regs.htState.code.setWidth 32)
  else .fault .sequencerOutsideRaster

/-- R153 `HT.RUN`. -/
def execHtRun (s : State) : Answer :=
  if s.regs.htState ≠ .run then s.refuse .eState
  else if sequencerInRaster s.params s.regs then s.runBody.finish 2
  else .fault .sequencerOutsideRaster

/-- R154 `HT.CONVERT`: the bodies of `HT.START` and `HT.RUN` as one operation. -/
def execHtConvert (s : State) : Answer :=
  if legalConfig s.params s.regs then
    s.startBody.runBody.finish (BitVec.ofNat 32 (s.regs.htBpl.toNat * s.regs.htH.toNat))
  else s.refuse .eCfg

end Sys2Proof.Machine
end

