-- ==== Sys2Proof/Machine/Dispatch.lean ====
section
/-! DEFINITION. One arm per constructor of Instr, each one call of the instruction's meaning. -/

namespace Sys2Proof.Machine

def exec (i : Instr) (s : State) : Host.Outcome State Fault Refusal :=
  match i with
  | .nop => Sys2Proof.Machine.execNop s
  | .sysReset => Sys2Proof.Machine.execSysReset s
  | .regRd rn => Sys2Proof.Machine.execRegRd rn s
  | .regWr rn v => Sys2Proof.Machine.execRegWr rn v s
  | .memRd sp a => Sys2Proof.Machine.execMemRd sp a s
  | .memWr sp a b => Sys2Proof.Machine.execMemWr sp a b s
  | .crcClr => Sys2Proof.Machine.execCrcClr s
  | .crcByte b => Sys2Proof.Machine.execCrcByte b s
  | .crcBuf sp a n => Sys2Proof.Machine.execCrcBuf sp a n s
  | .feBuild cmd len => Sys2Proof.Machine.execFeBuild cmd len s
  | .feCheck n => Sys2Proof.Machine.execFeCheck n s
  | .fdParse cmd n => Sys2Proof.Machine.execFdParse cmd n s
  | .fdNotify n => Sys2Proof.Machine.execFdNotify n s
  | .htStart => Sys2Proof.Machine.execHtStart s
  | .htStep => Sys2Proof.Machine.execHtStep s
  | .htRun => Sys2Proof.Machine.execHtRun s
  | .htConvert => Sys2Proof.Machine.execHtConvert s
  | .frameGetStatus len => Sys2Proof.Machine.execFrameGetStatus len s
  | .framePrintIntensity len => Sys2Proof.Machine.execFramePrintIntensity len s
  | .frameQueryCount len => Sys2Proof.Machine.execFrameQueryCount len s
  | .framePrint len => Sys2Proof.Machine.execFramePrint len s
  | .framePrintComplete len => Sys2Proof.Machine.execFramePrintComplete len s
  | .frameBatteryLevel len => Sys2Proof.Machine.execFrameBatteryLevel len s
  | .frameCancelPrint len => Sys2Proof.Machine.execFrameCancelPrint len s
  | .framePrintDataFlush len => Sys2Proof.Machine.execFramePrintDataFlush len s
  | .frameGetPrintType len => Sys2Proof.Machine.execFrameGetPrintType len s
  | .frameGetVersion len => Sys2Proof.Machine.execFrameGetVersion len s

end Sys2Proof.Machine
end

