-- ==== Sys2Proof/Machine/Step.lean ====
section
/-! DEFINITION. One step: the block accepts what the host presents, decodes it and carries it out; with nothing
presented it stays as it is (spec/10_state.md R19, spec/30_encoding.md R70). -/

namespace Sys2Proof.Machine

/-- One transaction on the operation port; "between two operations no state changes" (R19), so a step with
nothing presented changes nothing. -/
def step (s : State) : Host.Outcome State Fault Refusal :=
  match s.accept with
  | none => .next s
  | some (item, s1) =>
    match decode item with
    | .ok i => exec i s1
    | .error e => s1.rejected e

/-- The state with a word of spec/opcode_table.json presented at the port, before everything else (log entry 3:
a program is what the host presents; nothing is loaded into the block). -/
def State.withFetchWord (s : State) (nbits w : Nat) : State := s.present (tableItem nbits w)

end Sys2Proof.Machine
end

