-- ==== Sys2Proof/Safety.lean ====
section
/-! DEFINITION. What a safe run is: the invariant of the block's state, which every state of a run from power-on
meets, and in which no operation word stops the machine. -/

namespace Sys2Proof.Machine

/-- The written bytes of a memory in canonical form, every one at a legal address of its space (R51). -/
structure MemoryOk (m : Memory) (size : Nat) : Prop where
  wf      : m.wf
  inSpace : ∀ c ∈ m, c.1 < size

/-- The invariant. -/
structure State.Inv (s : State) : Prop where
  /-- R6: the sizes are ones an implementation may have. -/
  paramsLegal : s.params.legal
  /-- R50, R51: every memory is canonical and holds legal addresses only. -/
  memOk : ∀ sp : Space, MemoryOk (s.mem.get sp) (s.size sp)
  /-- R27: in RUN the next pixel lies in the raster of a legal configuration. -/
  runInRaster : s.regs.htState = .run → sequencerInRaster s.params s.regs
  /-- R27: in IDLE and in DONE the column is 0. -/
  columnZero : s.regs.htState ≠ .run → s.regs.htX = 0
  /-- R23: `FE_FLEN` is "8..65543; 0 if none since reset", and no frame is longer than FRM. -/
  frameLength : s.regs.feFlen = 0 ∨ (8 ≤ s.regs.feFlen.toNat ∧ s.regs.feFlen.toNat ≤ s.params.payloadMax + 8)
  /-- R28: before the first decode every `ND_*` register is 0. -/
  undecoded : s.regs.nd.kind = .none → s.regs.nd = NdRegs.zero

end Sys2Proof.Machine
end

