-- ==== Sys2Proof/Certificates/Slice0/Obligations.lean ====
section
/-! DEFINITION. The statements for the provers. What each rule says is written out here in the spec's own terms
(namespace Sys2Proof.Rules), apart from the meanings, so that a statement compares the two. -/

namespace Sys2Proof.Rules

open Sys2Proof Sys2Proof.Machine

/-- The operation was carried out with result `r`, and nothing else changed: `res <- {OK, r}`. -/
def ok (s : State) (r : Word) : State := { s with result := some { st := .ok, r := r } }

/-- The operation was refused: `{st = code, r = 0}`, no register and no memory byte changed (R181). -/
def refused (s : State) (code : Status) : State := { s with result := some { st := code, r := 0 } }

/-- What the host presents, the registers' sizes and the power-on stay as they were. -/
def SameOutside (s t : State) : Prop := t.port = s.port ∧ t.params = s.params ∧ t.powerUp = s.powerUp

/-- R50: the space identifiers, their spaces and sizes. -/
def spaces (p : Params) : List (BitVec 8 × Space × Nat) :=
  [(0, .pay, p.payloadMax), (1, .frm, p.payloadMax + 8), (2, .ntf, p.notifMax), (3, .pix, p.pixSize),
   (4, .pck, p.packSize)]

/-- R23: the read-only registers' numbers. -/
def readOnlyNumbers : List (BitVec 8) :=
  [0x00, 0x01, 0x14, 0x15, 0x16, 0x20, 0x21, 0x22, 0x23, 0x24, 0x25, 0x26, 0x27, 0x28, 0x29, 0x2A, 0x2B]

/-- R23: the four read-write registers' numbers. -/
def readWriteNumbers : List (BitVec 8) := [0x10, 0x11, 0x12, 0x13]

/-- R73: the seventeen selectors. -/
def selectors : List (BitVec 8) :=
  [0x00, 0x01, 0x08, 0x09, 0x10, 0x11, 0x20, 0x21, 0x22, 0x30, 0x31, 0x38, 0x39, 0x40, 0x41, 0x42, 0x43]

/-- The bytes `SP[a .. a+n)`. -/
def bytes (s : State) (sp : Space) (a n : Nat) : List Byte := (List.range n).map (fun i => s.readByte sp (a + i))

/-! ### Registers -/

/-- R200: the reset values. -/
def resetRegs : Regs where
  crcAcc  := 0x00
  feFlen  := 0
  htW     := 384
  htH     := 0
  htBpl   := 48
  htMode  := 0x00
  htX     := 0
  htY     := 0
  htState := .idle
  nd      := { kind := .none, cmd := 0, len := 0, flags := 0, batt := 0, temp := 0, stat := 0, sdet := 0,
               verlo := 0, verhi := 0, ptype := 0, succ := 0 }

/-- A decode's registers with every field 0 but these four (R126). -/
def ndOf (kind : NdKind) (cmd : Byte) (n : Word) (flags : BitVec 2) : NdRegs where
  kind := kind
  cmd := cmd
  len := n
  flags := flags
  batt := 0
  temp := 0
  stat := 0
  sdet := 0
  verlo := 0
  verhi := 0
  ptype := 0
  succ := 0

/-- The state after a decode with the given registers and kind code (R126). -/
def decoded (s : State) (nd : NdRegs) (kindCode : Word) : State :=
  { s with regs := { s.regs with nd := nd }, result := some { st := .ok, r := kindCode } }

/-- R126: the notification bytes a decode for identifier `cmd` reads: those of its case, and none when the
notification is shorter than the case's least length. That VERSION reads bytes 7, 8 and 11 is R126 and the table of
R78 against R78's closing sentence (log entry 8). -/
def decodeReads (cmd : Byte) (n : Nat) : List Nat :=
  if cmd = 0xA1 ∧ 14 ≤ n then [9, 10, 12, 13]
  else if cmd = 0xAB ∧ 7 ≤ n then [6]
  else if cmd = 0xB1 ∧ 15 ≤ n then [6, 7, 8, 9, 10, 11, 12, 13, 14]
  else if cmd = 0xAA ∧ 7 ≤ n then [6]
  else []

/-! ### The CRC -/

/-- R113: the source's bit step on an accumulator that may grow beyond 8 bits. -/
def wideShift (c : Nat) : Nat := if c.testBit 7 then (c * 2) ^^^ 7 else c * 2

/-- R113: "truncate to 8 bits after the loop". -/
def wideByte (c b : Nat) : Nat :=
  wideShift (wideShift (wideShift (wideShift (wideShift (wideShift (wideShift (wideShift (c ^^^ b)))))))) % 256

/-! ### The halftone -/

def W (s : State) : Nat := s.regs.htW.toNat
def H (s : State) : Nat := s.regs.htH.toNat
def BPL (s : State) : Nat := s.regs.htBpl.toNat
def X (s : State) : Nat := s.regs.htX.toNat
def Y (s : State) : Nat := s.regs.htY.toNat

/-- R140: the configuration is legal. -/
abbrev Legal (s : State) : Prop :=
  ((s.regs.htMode = 0x00 ∧ W s % 8 = 0 ∧ BPL s = W s / 8) ∨ (s.regs.htMode = 0x02 ∧ W s % 2 = 0 ∧ BPL s = W s / 2)) ∧
  1 ≤ W s ∧ 1 ≤ H s ∧ 4 * W s * H s ≤ s.params.pixSize ∧ BPL s * H s ≤ s.params.packSize

/-- R27: a conversion is in progress and the next pixel lies in the raster. -/
def Running (s : State) : Prop := s.regs.htState = .run ∧ Legal s ∧ X s < W s ∧ Y s < H s

/-- R141: the address of channel `c` (0 R, 1 G, 2 B, 3 A) of pixel (x, y). -/
def channel (s : State) (x y c : Nat) : Nat := 4 * (y * W s + x) + c

/-- R142: `floor((R + G + B) / 3)` of pixel (x, y). -/
def average (s : State) (x y : Nat) : Nat :=
  ((s.readByte .pix (channel s x y 0)).toNat + (s.readByte .pix (channel s x y 1)).toNat +
    (s.readByte .pix (channel s x y 2)).toNat) / 3

/-- R142: the brightness of the pixel to process. -/
def br (s : State) : Nat := 255 - average s (X s) (Y s)

/-- R143, R144: its quantised value. -/
def nv (s : State) : Nat :=
  if s.regs.htMode = 0x00 then (if br s ≥ 128 then 255 else 0) else min (16 * ((br s + 8) / 16)) 255

/-- R146: the diffusion error. -/
def err (s : State) : Int := (br s : Int) - (nv s : Int)

/-- R147: the weight, in sixteenths, of pixel (nx, ny) as a neighbour of pixel (x, y); 0 for any other pixel. -/
def weight (x y nx ny : Nat) : Int :=
  if nx = x + 1 ∧ ny = y then 7
  else if nx + 1 = x ∧ ny = y + 1 then 3
  else if nx = x ∧ ny = y + 1 then 5
  else if nx = x + 1 ∧ ny = y + 1 then 1
  else 0

/-- R147: `clamp(a - floor((err * w) / 16), 0, 255)`. -/
def diffused (a : Nat) (e w : Int) : Int := max 0 (min 255 ((a : Int) - Int.fdiv (e * w) 16))

/-- R148: the registers after the advance. -/
def advanced (s : State) : Regs :=
  { s.regs with
    htX := if X s + 1 < W s then BitVec.ofNat 16 (X s + 1) else 0
    htY := if X s + 1 < W s then s.regs.htY else BitVec.ofNat 16 (Y s + 1)
    htState := if X s + 1 < W s ∨ Y s + 1 < H s then .run else .done }

/-- `k` times `HT.STEP`, as long as each is carried out. -/
def stepTimes : Nat → State → Option State
  | 0, s => some s
  | k + 1, s =>
    match exec .htStep s with
    | .next t => stepTimes k t
    | .fault _ => none
    | .refused _ => none

/-! ### The whole machine -/

/-- R182, R183: the status every operation returns, with the first cause in the fixed order; for the FRAME rows, which
are no operations, that of `FE.BUILD` (the model's choice, log entry 2). -/
def statusOf (s : State) : Instr → Status
  | .nop => .ok
  | .sysReset => .ok
  | .regRd rn => if rn ∈ readOnlyNumbers ++ readWriteNumbers then .ok else .eReg
  | .regWr rn _ =>
    if rn ∈ readOnlyNumbers then .eRo
    else if rn ∉ readWriteNumbers then .eReg
    else if s.regs.htState = .run then .eState else .ok
  | .memRd sp a =>
    if 4 < sp.toNat then .eSpace
    else if ∃ x ∈ spaces s.params, x.1 = sp ∧ x.2.2 ≤ a.toNat then .eRange else .ok
  | .memWr sp a _ =>
    if 4 < sp.toNat then .eSpace
    else if ∃ x ∈ spaces s.params, x.1 = sp ∧ x.2.2 ≤ a.toNat then .eRange else .ok
  | .crcClr => .ok
  | .crcByte _ => .ok
  | .crcBuf sp a n =>
    if 4 < sp.toNat then .eSpace
    else if ∃ x ∈ spaces s.params, x.1 = sp ∧ x.2.2 < a.toNat + n.toNat then .eRange else .ok
  | .feBuild _ len => if s.params.payloadMax < len.toNat then .eRange else .ok
  | .feCheck n => if s.params.payloadMax + 8 < n.toNat then .eRange else .ok
  | .fdParse _ n => if s.params.notifMax < n.toNat then .eRange else .ok
  | .fdNotify n => if s.params.notifMax < n.toNat then .eRange else .ok
  | .htStart => if Legal s then .ok else .eCfg
  | .htStep => if s.regs.htState = .run then .ok else .eState
  | .htRun => if s.regs.htState = .run then .ok else .eState
  | .htConvert => if Legal s then .ok else .eCfg
  | .frameGetStatus len => if s.params.payloadMax < len.toNat then .eRange else .ok
  | .framePrintIntensity len => if s.params.payloadMax < len.toNat then .eRange else .ok
  | .frameQueryCount len => if s.params.payloadMax < len.toNat then .eRange else .ok
  | .framePrint len => if s.params.payloadMax < len.toNat then .eRange else .ok
  | .framePrintComplete len => if s.params.payloadMax < len.toNat then .eRange else .ok
  | .frameBatteryLevel len => if s.params.payloadMax < len.toNat then .eRange else .ok
  | .frameCancelPrint len => if s.params.payloadMax < len.toNat then .eRange else .ok
  | .framePrintDataFlush len => if s.params.payloadMax < len.toNat then .eRange else .ok
  | .frameGetPrintType len => if s.params.payloadMax < len.toNat then .eRange else .ok
  | .frameGetVersion len => if s.params.payloadMax < len.toNat then .eRange else .ok

/-- The ten FRAME rows with their identifiers (R77). -/
def frameRows : List ((BitVec 16 → Instr) × Byte) :=
  [(Instr.frameGetStatus, 0xA1), (Instr.framePrintIntensity, 0xA2), (Instr.frameQueryCount, 0xA7),
   (Instr.framePrint, 0xA9), (Instr.framePrintComplete, 0xAA), (Instr.frameBatteryLevel, 0xAB),
   (Instr.frameCancelPrint, 0xAC), (Instr.framePrintDataFlush, 0xAD), (Instr.frameGetPrintType, 0xB0),
   (Instr.frameGetVersion, 0xB1)]

/-- The instruction builds a frame of `len` payload bytes. -/
def BuildsFrame (i : Instr) (len : BitVec 16) : Prop :=
  (∃ cmd, i = .feBuild cmd len) ∨ ∃ row ∈ frameRows, i = row.1 len

/-- R56, the row of `HT.STEP`: what the step on pixel (x, y) may write: its one packed byte, and the colour channels
of its neighbours in the raster. -/
def StepMayWrite (s : State) (x y : Nat) (sp : Space) (a : Nat) : Prop :=
  (sp = .pck ∧ a = y * BPL s + x / (if s.regs.htMode = 0x00 then 8 else 2)) ∨
  (sp = .pix ∧ ∃ nx ny c, nx < W s ∧ ny < H s ∧ c < 3 ∧ weight x y nx ny ≠ 0 ∧ a = channel s nx ny c)

/-- R56, the columns of the writes: byte `a` of `sp` lies in a range that the instruction may write. `HT.RUN` and
`HT.CONVERT` write "as the steps (and START) they are made of": the steps on the pixels from the next one on. -/
def MayWrite (s : State) (i : Instr) (sp : Space) (a : Nat) : Prop :=
  (∃ id w b size, i = .memWr id w b ∧ (id, sp, size) ∈ spaces s.params ∧ a = w.toNat) ∨
  (∃ len, BuildsFrame i len ∧ sp = .frm ∧ a < len.toNat + 8) ∨
  ((i = .htStart ∨ i = .htConvert) ∧ sp = .pck ∧ a < BPL s * H s) ∨
  (i = .htStep ∧ StepMayWrite s (X s) (Y s) sp a) ∨
  (i = .htRun ∧ ∃ x y, x < W s ∧ y < H s ∧ Y s * W s + X s ≤ y * W s + x ∧ StepMayWrite s x y sp a) ∨
  (i = .htConvert ∧ ∃ x y, x < W s ∧ y < H s ∧ StepMayWrite s x y sp a)

end Sys2Proof.Rules

section
open Sys2Proof Sys2Proof.Machine Sys2Proof.Rules

/-! ## Encoding and stepping -/

/-- Decode and encode agree for every instruction, with every operand at every value (R70 to R77); a frame header
is the encoding of what it decodes to; and an operation word decodes as the encoding, with the same selector and its
unread fields zero, of what it decodes to. The six-byte form of the FRAME rows is the model's choice (log entry 2). -/
def Obligations.DecodeAndEncodeAgree : Prop :=
  (∀ i : Instr, decode (encode i) = .ok i) ∧
  (∀ (bytes : List Byte) (i : Instr), decode (.frame bytes) = .ok i → encode i = .frame bytes) ∧
  (∀ (w : OpWord) (i : Instr), decode (.op w) = .ok i →
    ∃ w', encode i = .op w' ∧ opSel w' = opSel w ∧ decode (.op w') = .ok i)

/-- Operation words written out from R70, R72 and R73 decode to the instructions they stand for. That a frame's
first bytes (R75, R77) decode to an instruction at all is the model's choice (log entry 2), and so is the length 0 of
a row of the opcode table (log entry 3): the last three clauses rest on those. -/
def Obligations.WrittenOutWordsDecode : Prop :=
  decode (.op 0x00FFFFFFFFFFFFFFFFFF) = .ok .nop ∧
  decode (.op 0x01000000000000000000) = .ok .sysReset ∧
  decode (.op 0x08000000011000000000) = .ok (.regRd 0x10) ∧
  decode (.op 0x09000000001000010008) = .ok (.regWr 0x10 0x10008) ∧
  decode (.op 0x1001000000070000AAAA) = .ok (.memRd 1 7) ∧
  decode (.op 0x1102000000FF000001FF) = .ok (.memWr 2 0xFF 0xFF) ∧
  decode (.op 0x21000000000000000131) = .ok (.crcByte 0x31) ∧
  decode (.op 0x22020000000700000002) = .ok (.crcBuf 2 7 2) ∧
  decode (.op 0x3000000000A900000004) = .ok (.feBuild 0xA9 4) ∧
  decode (.op 0x3800000001AB00000007) = .ok (.fdParse 0xAB 7) ∧
  decode (.op 0x43000000000000000000) = .ok .htConvert ∧
  decodeTableWord 32 0x2221A100 = some (.frameGetStatus 0) ∧
  decodeTableWord 32 0x2221B100 = some (.frameGetVersion 0) ∧
  decode (.frame [0x22, 0x21, 0xA9, 0x00, 0x2C, 0x01]) = .ok (.framePrint 300)

/-- R71, R72, R73: the operation a word selects, the operands it takes from the word's fields, and that the
fields it does not read have no effect. -/
def Obligations.OperationWordsSelectAndIgnore : Prop :=
  ∀ (s : State) (sp : BitVec 8) (a d : Word),
    step (s.present (.op (opWord 0x00 sp a d))) = exec .nop s ∧
    step (s.present (.op (opWord 0x01 sp a d))) = exec .sysReset s ∧
    step (s.present (.op (opWord 0x08 sp a d))) = exec (.regRd (a.setWidth 8)) s ∧
    step (s.present (.op (opWord 0x09 sp a d))) = exec (.regWr (a.setWidth 8) d) s ∧
    step (s.present (.op (opWord 0x10 sp a d))) = exec (.memRd sp a) s ∧
    step (s.present (.op (opWord 0x11 sp a d))) = exec (.memWr sp a (d.setWidth 8)) s ∧
    step (s.present (.op (opWord 0x20 sp a d))) = exec .crcClr s ∧
    step (s.present (.op (opWord 0x21 sp a d))) = exec (.crcByte (d.setWidth 8)) s ∧
    step (s.present (.op (opWord 0x22 sp a d))) = exec (.crcBuf sp a d) s ∧
    step (s.present (.op (opWord 0x30 sp a d))) = exec (.feBuild (a.setWidth 8) (d.setWidth 16)) s ∧
    step (s.present (.op (opWord 0x31 sp a d))) = exec (.feCheck d) s ∧
    step (s.present (.op (opWord 0x38 sp a d))) = exec (.fdParse (a.setWidth 8) d) s ∧
    step (s.present (.op (opWord 0x39 sp a d))) = exec (.fdNotify d) s ∧
    step (s.present (.op (opWord 0x40 sp a d))) = exec .htStart s ∧
    step (s.present (.op (opWord 0x41 sp a d))) = exec .htStep s ∧
    step (s.present (.op (opWord 0x42 sp a d))) = exec .htRun s ∧
    step (s.present (.op (opWord 0x43 sp a d))) = exec .htConvert s

/-- R74: reserved selectors, space identifiers, register numbers and mode values. -/
def Obligations.ReservedEncodingsAreRefused : Prop :=
  selectors.length = 17 ∧
  (∀ (s : State) (sel sp : BitVec 8) (a d : Word), sel ∉ selectors →
    step (s.present (.op (opWord sel sp a d))) = .next (refused s .eOp)) ∧
  (∀ (s : State) (sp : BitVec 8) (a n : Word) (b : Byte), 5 ≤ sp.toNat →
    exec (.memRd sp a) s = .next (refused s .eSpace) ∧ exec (.memWr sp a b) s = .next (refused s .eSpace) ∧
    exec (.crcBuf sp a n) s = .next (refused s .eSpace)) ∧
  (∀ (s : State) (rn : BitVec 8) (v : Word), rn ∉ readOnlyNumbers ++ readWriteNumbers →
    exec (.regRd rn) s = .next (refused s .eReg) ∧ exec (.regWr rn v) s = .next (refused s .eReg)) ∧
  (∀ (s : State) (v : Word), s.regs.htState ≠ .run → v.setWidth 8 ≠ (0x00 : Byte) → v.setWidth 8 ≠ (0x02 : Byte) →
    ∃ t, exec (.regWr 0x13 v) s = .next t ∧ t.regs.htMode = v.setWidth 8 ∧
      exec .htStart t = .next (refused t .eCfg))

/-- R70: "a model takes `op` as the argument of a step". The model takes it off the list of what the host presents
next (the model's choice, log entry 3), where an item may also be a frame's first six bytes (the model's choice, log
entry 2): when the first item decodes to an instruction, a step is that instruction with the item taken off. -/
def Obligations.StepRunsTheDecodedInstruction : Prop :=
  ∀ (s : State) (item : PortItem) (rest : List PortItem) (i : Instr),
    s.port = item :: rest → decode item = .ok i → step s = exec i { s with port := rest }

/-- "between two operations no state changes" (R19): with nothing presented (the model's
`port`, log entry 3), a step changes nothing. -/
def Obligations.IdleStepChangesNothing : Prop := ∀ s : State, s.port = [] → step s = .next s

/-- R70: the fields of the 40-bit result word, with the codes of R182. -/
def Obligations.ResultWordFields : Prop :=
  ∀ res : Machine.Result,
    res.word.extractLsb' 0 32 = res.r ∧
    res.word.extractLsb' 32 8 =
      match res.st with
      | .ok => 0x00
      | .eOp => 0x01
      | .eSpace => 0x02
      | .eRange => 0x03
      | .eReg => 0x04
      | .eRo => 0x05
      | .eCfg => 0x06
      | .eState => 0x07

/-! ## System, register and memory operations -/

/-- R100 `NOP`. -/
def Obligations.NopDoesNothing : Prop :=
  (∀ (sp : BitVec 8) (a d : Word), decode (.op (opWord 0x00 sp a d)) = .ok .nop) ∧
  ∀ s : State, exec .nop s = .next (ok s 0)

/-- R101 `SYS.RESET`, in every state. -/
def Obligations.SysResetRestoresRegistersOnly : Prop :=
  (∀ (sp : BitVec 8) (a d : Word), decode (.op (opWord 0x01 sp a d)) = .ok .sysReset) ∧
  ∀ s : State, exec .sysReset s = .next (ok { s with regs := resetRegs } 0)

/-- R200: the registers after power-on reset, whatever the sizes; the port is free. -/
def Obligations.PowerOnRegisterValues : Prop :=
  (State.reset.regs = resetRegs ∧ State.reset.port = []) ∧
  ∀ (p : Params) (k : Nat), (State.powerOn p k).regs = resetRegs ∧ (State.powerOn p k).port = []

/-- R102 `REG.RD`: every register of R23 by its number, and every other number refused. -/
def Obligations.RegRdReturnsTheRegister : Prop :=
  (∀ (sp : BitVec 8) (a d : Word), decode (.op (opWord 0x08 sp a d)) = .ok (.regRd (a.setWidth 8))) ∧
  ∀ s : State,
    exec (.regRd 0x00) s = .next (ok s (s.regs.crcAcc.setWidth 32)) ∧
    exec (.regRd 0x01) s = .next (ok s (s.regs.feFlen.setWidth 32)) ∧
    exec (.regRd 0x10) s = .next (ok s (s.regs.htW.setWidth 32)) ∧
    exec (.regRd 0x11) s = .next (ok s (s.regs.htH.setWidth 32)) ∧
    exec (.regRd 0x12) s = .next (ok s (s.regs.htBpl.setWidth 32)) ∧
    exec (.regRd 0x13) s = .next (ok s (s.regs.htMode.setWidth 32)) ∧
    exec (.regRd 0x14) s = .next (ok s (s.regs.htX.setWidth 32)) ∧
    exec (.regRd 0x15) s = .next (ok s (s.regs.htY.setWidth 32)) ∧
    exec (.regRd 0x16) s = .next (ok s (match s.regs.htState with | .idle => 0 | .run => 1 | .done => 2)) ∧
    exec (.regRd 0x20) s = .next (ok s (match s.regs.nd.kind with
      | .none => 0 | .status => 1 | .battery => 2 | .version => 3 | .complete => 4 | .raw => 5)) ∧
    exec (.regRd 0x21) s = .next (ok s (s.regs.nd.cmd.setWidth 32)) ∧
    exec (.regRd 0x22) s = .next (ok s s.regs.nd.len) ∧
    exec (.regRd 0x23) s = .next (ok s (s.regs.nd.flags.setWidth 32)) ∧
    exec (.regRd 0x24) s = .next (ok s (s.regs.nd.batt.setWidth 32)) ∧
    exec (.regRd 0x25) s = .next (ok s (s.regs.nd.temp.setWidth 32)) ∧
    exec (.regRd 0x26) s = .next (ok s (s.regs.nd.stat.setWidth 32)) ∧
    exec (.regRd 0x27) s = .next (ok s (s.regs.nd.sdet.setWidth 32)) ∧
    exec (.regRd 0x28) s = .next (ok s s.regs.nd.verlo) ∧
    exec (.regRd 0x29) s = .next (ok s s.regs.nd.verhi) ∧
    exec (.regRd 0x2A) s = .next (ok s (s.regs.nd.ptype.setWidth 32)) ∧
    exec (.regRd 0x2B) s = .next (ok s (s.regs.nd.succ.setWidth 32)) ∧
    ∀ rn : BitVec 8, rn ∉ readOnlyNumbers ++ readWriteNumbers → exec (.regRd rn) s = .next (refused s .eReg)

/-- R103 `REG.WR`: the four writable registers outside RUN, and the refusals in their order. -/
def Obligations.RegWrWritesTheConfiguration : Prop :=
  (∀ (sp : BitVec 8) (a d : Word), decode (.op (opWord 0x09 sp a d)) = .ok (.regWr (a.setWidth 8) d)) ∧
  ∀ (s : State) (v : Word),
    (∀ rn : BitVec 8, rn ∉ readOnlyNumbers ++ readWriteNumbers → exec (.regWr rn v) s = .next (refused s .eReg)) ∧
    (∀ rn ∈ readOnlyNumbers, exec (.regWr rn v) s = .next (refused s .eRo)) ∧
    (s.regs.htState = .run → ∀ rn ∈ readWriteNumbers, exec (.regWr rn v) s = .next (refused s .eState)) ∧
    (s.regs.htState ≠ .run →
      exec (.regWr 0x10 v) s = .next (ok { s with regs := { s.regs with htW := v.setWidth 16 } } 0) ∧
      exec (.regWr 0x11 v) s = .next (ok { s with regs := { s.regs with htH := v.setWidth 16 } } 0) ∧
      exec (.regWr 0x12 v) s = .next (ok { s with regs := { s.regs with htBpl := v.setWidth 16 } } 0) ∧
      exec (.regWr 0x13 v) s = .next (ok { s with regs := { s.regs with htMode := v.setWidth 8 } } 0))

/-- R104 `MEM.RD`. -/
def Obligations.MemRdReturnsTheByte : Prop :=
  (∀ (sp : BitVec 8) (a d : Word), decode (.op (opWord 0x10 sp a d)) = .ok (.memRd sp a)) ∧
  ∀ (s : State) (a : Word),
    (∀ sp : BitVec 8, 4 < sp.toNat → exec (.memRd sp a) s = .next (refused s .eSpace)) ∧
    (∀ x ∈ spaces s.params, x.2.2 ≤ a.toNat → exec (.memRd x.1 a) s = .next (refused s .eRange)) ∧
    (∀ x ∈ spaces s.params, a.toNat < x.2.2 →
      exec (.memRd x.1 a) s = .next (ok s ((s.readByte x.2.1 a.toNat).setWidth 32)))

/-- R105 `MEM.WR`: the one byte written, every other byte of every space and every register as before. -/
def Obligations.MemWrWritesOneByte : Prop :=
  (∀ (sp : BitVec 8) (a d : Word), decode (.op (opWord 0x11 sp a d)) = .ok (.memWr sp a (d.setWidth 8))) ∧
  ∀ (s : State) (a : Word) (b : Byte),
    (∀ sp : BitVec 8, 4 < sp.toNat → exec (.memWr sp a b) s = .next (refused s .eSpace)) ∧
    (∀ x ∈ spaces s.params, x.2.2 ≤ a.toNat → exec (.memWr x.1 a b) s = .next (refused s .eRange)) ∧
    (∀ x ∈ spaces s.params, a.toNat < x.2.2 →
      ∃ t, exec (.memWr x.1 a b) s = .next t ∧ t.result = some { st := .ok, r := 0 } ∧ t.regs = s.regs ∧
        SameOutside s t ∧
        ∀ sp' a', t.readByte sp' a' = if sp' = x.2.1 ∧ a' = a.toNat then b else s.readByte sp' a')

/-- R54, R57: a read returns the latest write to the byte, and a second read returns what the first did, of a byte
never written too (a free value, log entry 1). -/
def Obligations.ReadsReturnTheLatestWrite : Prop :=
  (∀ (s t : State) (sp : BitVec 8) (a : Word), exec (.memRd sp a) s = .next t → exec (.memRd sp a) t = .next t) ∧
  (∀ (s t : State) (sp : BitVec 8) (a : Word) (b : Byte), exec (.memWr sp a b) s = .next t →
    t.result = some { st := .ok, r := 0 } → exec (.memRd sp a) t = .next (ok t (b.setWidth 32)))

/-- R184: "reading a memory byte never written (unspecified value, `st = OK`)": in every state, a legal address that
nothing has written reads as the free value of the power-on (the model's choice, log entry 1), whatever it is; after
power-on nothing has written any address (R201). -/
def Obligations.UnwrittenByteReadsWithoutError : Prop :=
  (∀ (s : State) (a : Word), ∀ x ∈ spaces s.params, a.toNat < x.2.2 →
    Memory.byteAt (s.mem.get x.2.1) a.toNat = none →
    exec (.memRd x.1 a) s = .next (ok s ((Config.powerOnByte s.powerUp x.2.1 a.toNat).setWidth 32))) ∧
  ∀ (p : Params) (k : Nat) (sp : Space) (a : Nat), Memory.byteAt ((State.powerOn p k).mem.get sp) a = none

/-! ## CRC unit -/

/-- R110: the bit step as the formula, as a shift register, and as multiplication by x modulo x^8 + x^2 + x + 1. -/
def Obligations.CrcBitStep : Prop :=
  ∀ c : Byte,
    (crcShift c).toNat = (if c.getLsbD 7 then (c.toNat * 2 % 256) ^^^ 0x07 else c.toNat * 2 % 256) ∧
    (crcShift c).getLsbD 0 = c.getLsbD 7 ∧
    (crcShift c).getLsbD 1 = (c.getLsbD 0 ^^ c.getLsbD 7) ∧
    (crcShift c).getLsbD 2 = (c.getLsbD 1 ^^ c.getLsbD 7) ∧
    (∀ k < 5, (crcShift c).getLsbD (k + 3) = c.getLsbD (k + 2)) ∧
    (crcShift c).toNat = if 256 ≤ 2 * c.toNat then (2 * c.toNat) ^^^ 0b100000111 else 2 * c.toNat

/-- R114 `CRC.CLR`. -/
def Obligations.CrcClrClearsTheAccumulator : Prop :=
  (∀ (sp : BitVec 8) (a d : Word), decode (.op (opWord 0x20 sp a d)) = .ok .crcClr) ∧
  ∀ s : State, exec .crcClr s = .next (ok { s with regs := { s.regs with crcAcc := 0x00 } } 0)

/-- R115 `CRC.BYTE`: eight bit steps (R111) of the accumulator with the byte XORed in. -/
def Obligations.CrcByteAbsorbsOneByte : Prop :=
  (∀ (sp : BitVec 8) (a d : Word), decode (.op (opWord 0x21 sp a d)) = .ok (.crcByte (d.setWidth 8))) ∧
  ∀ (s : State) (b : Byte),
    let c := (List.range 8).foldl (fun c _ => crcShift c) (s.regs.crcAcc ^^^ b)
    exec (.crcByte b) s = .next (ok { s with regs := { s.regs with crcAcc := c } } (c.setWidth 32))

/-- R116 `CRC.BUF`: `crc8` (R112) of the bytes in ascending order, memory untouched; the sum `a + n` does not wrap. -/
def Obligations.CrcBufComputesCrc8 : Prop :=
  (∀ (sp : BitVec 8) (a d : Word), decode (.op (opWord 0x22 sp a d)) = .ok (.crcBuf sp a d)) ∧
  ∀ (s : State) (a n : Word),
    (∀ sp : BitVec 8, 4 < sp.toNat → exec (.crcBuf sp a n) s = .next (refused s .eSpace)) ∧
    (∀ x ∈ spaces s.params, x.2.2 < a.toNat + n.toNat → exec (.crcBuf x.1 a n) s = .next (refused s .eRange)) ∧
    (∀ x ∈ spaces s.params, a.toNat + n.toNat ≤ x.2.2 →
      let c := (bytes s x.2.1 a.toNat n.toNat).foldl crcByte 0x00
      exec (.crcBuf x.1 a n) s = .next (ok { s with regs := { s.regs with crcAcc := c } } (c.setWidth 32)))

/-- R117 (a) to (e). -/
def Obligations.Crc8Consequences : Prop :=
  (List.range 16).map (fun b => crcByte 0 (BitVec.ofNat 8 b)) =
    [0x00, 0x07, 0x0E, 0x09, 0x1C, 0x1B, 0x12, 0x15, 0x38, 0x3F, 0x36, 0x31, 0x24, 0x23, 0x2A, 0x2D] ∧
  (∀ s t : List Byte, s.length = t.length → crc8 (List.zipWith (· ^^^ ·) s t) = crc8 s ^^^ crc8 t) ∧
  (∀ s : List Byte, crc8 (0x00 :: s) = crc8 s) ∧
  (∀ s : List Byte, crc8 (s ++ [crc8 s]) = 0x00) ∧
  (∀ (cmd : Byte) (p : List Byte), crc8 ((Machine.buildFrame cmd p).take (p.length + 7)) = 0x00) ∧
  (∀ s t : List Byte, crc8 (s ++ t) = t.foldl crcByte (crc8 s))

/-- R113: bits 7:0 after k untruncated steps equal the result of k truncated steps, so an accumulator that grows
during the eight iterations and is truncated after them gives the same CRC. -/
def Obligations.LateTruncationIsNotObservable : Prop :=
  (∀ c k : Nat, (List.range k).foldl (fun c _ => wideShift c) c % 256 =
    ((List.range k).foldl (fun c _ => crcShift c) (BitVec.ofNat 8 c)).toNat) ∧
  ∀ s : List Byte, (crc8 s).toNat = (s.map BitVec.toNat).foldl wideByte 0

/-! ## Frame encoder and checker -/

/-- R121, R122 `FE.BUILD`: the frame byte by byte, the accumulator, `FE_FLEN`, the result, and everything else as
before; a length beyond `PAYLOAD_MAX` is refused. -/
def Obligations.FeBuildWritesTheFrame : Prop :=
  (∀ (sp : BitVec 8) (a d : Word), decode (.op (opWord 0x30 sp a d)) = .ok (.feBuild (a.setWidth 8) (d.setWidth 16))) ∧
  ∀ (s : State) (cmd : Byte) (len : BitVec 16),
    (s.params.payloadMax < len.toNat → exec (.feBuild cmd len) s = .next (refused s .eRange)) ∧
    (len.toNat ≤ s.params.payloadMax →
      ∃ t, exec (.feBuild cmd len) s = .next t ∧
        t.result = some { st := .ok, r := BitVec.ofNat 32 (len.toNat + 8) } ∧
        (t.readByte .frm 0 = 0x22 ∧ t.readByte .frm 1 = 0x21 ∧ t.readByte .frm 2 = cmd ∧ t.readByte .frm 3 = 0x00 ∧
          t.readByte .frm 4 = len.setWidth 8 ∧ t.readByte .frm 5 = (len >>> 8).setWidth 8) ∧
        (∀ i < len.toNat, t.readByte .frm (6 + i) = s.readByte .pay i) ∧
        t.readByte .frm (6 + len.toNat) = crc8 (bytes t .frm 0 (6 + len.toNat)) ∧
        t.readByte .frm (7 + len.toNat) = 0xFF ∧
        t.regs = { s.regs with
          crcAcc := t.readByte .frm (6 + len.toNat), feFlen := BitVec.ofNat 17 (len.toNat + 8) } ∧
        SameOutside s t ∧
        ∀ sp a, sp ≠ .frm ∨ len.toNat + 8 ≤ a → t.readByte sp a = s.readByte sp a)

/-- R123 `FE.CHECK`: every bit of the result, the accumulator, and nothing else changed. -/
def Obligations.FeCheckReportsEveryFlag : Prop :=
  (∀ (sp : BitVec 8) (a d : Word), decode (.op (opWord 0x31 sp a d)) = .ok (.feCheck d)) ∧
  ∀ (s : State) (n : Word),
    (s.params.payloadMax + 8 < n.toNat → exec (.feCheck n) s = .next (refused s .eRange)) ∧
    (n.toNat ≤ s.params.payloadMax + 8 → n.toNat < 8 → exec (.feCheck n) s = .next (ok s 0x00000001)) ∧
    (n.toNat ≤ s.params.payloadMax + 8 → 8 ≤ n.toNat →
      let f := fun a => s.readByte .frm a
      let len := (f 4).toNat + 256 * (f 5).toNat
      let fits : Bool := decide (n.toNat = len + 8)
      let crc := crc8 (bytes s .frm 0 (6 + len))
      ∃ r : Word,
        exec (.feCheck n) s =
          .next (ok { s with regs := { s.regs with crcAcc := if fits then crc else s.regs.crcAcc } } r) ∧
        r.getLsbD 0 = false ∧
        r.getLsbD 1 = decide (f 0 ≠ 0x22 ∨ f 1 ≠ 0x21) ∧
        r.getLsbD 2 = decide (f 3 ≠ 0x00) ∧
        r.getLsbD 3 = !fits ∧
        r.getLsbD 4 = (fits && decide (f (6 + len) ≠ crc)) ∧
        r.getLsbD 5 = (fits && decide (f (7 + len) ≠ 0xFF)) ∧
        r.getLsbD 6 = false ∧ r.getLsbD 7 = false ∧
        r.extractLsb' 8 8 = f 2 ∧
        (r.extractLsb' 16 16).toNat = len)

/-- R124: a frame that was built passes the check with its identifier and length, and carries its payload. -/
def Obligations.BuiltFramePassesTheCheck : Prop :=
  ∀ (s : State) (cmd : Byte) (len : BitVec 16), len.toNat ≤ s.params.payloadMax →
    ∃ t u, exec (.feBuild cmd len) s = .next t ∧ exec (.feCheck (BitVec.ofNat 32 (len.toNat + 8))) t = .next u ∧
      u.result = some { st := .ok, r := (len.setWidth 32 <<< 16) ||| (cmd.setWidth 32 <<< 8) } ∧
      ∀ i < len.toNat, u.readByte .frm (6 + i) = s.readByte .pay i

/-- R117 (d): the CRC over a built frame up to and including its CRC byte, computed by `CRC.BUF`, is 0x00. -/
def Obligations.CrcOverABuiltFrameIsZero : Prop :=
  ∀ (s t : State) (cmd : Byte) (len : BitVec 16), len.toNat ≤ s.params.payloadMax →
    exec (.feBuild cmd len) s = .next t →
    exec (.crcBuf 1 0 (BitVec.ofNat 32 (len.toNat + 7))) t =
      .next (ok { t with regs := { t.regs with crcAcc := 0x00 } } 0)

/-- The FRAME rows (R77), by the model's choice (log entry 2): each builds, as `FE.BUILD` does, the frame whose
header and length bytes are its encoding. -/
def Obligations.FrameRowsBuildTheirFrames : Prop :=
  ∀ row ∈ frameRows, ∀ (s : State) (len : BitVec 16),
    (s.params.payloadMax < len.toNat → exec (row.1 len) s = .next (refused s .eRange)) ∧
    (len.toNat ≤ s.params.payloadMax →
      ∃ t, exec (row.1 len) s = .next t ∧ exec (.feBuild row.2 len) s = .next t ∧
        encode (row.1 len) = .frame (bytes t .frm 0 6) ∧
        decode (.frame (bytes t .frm 0 6)) = .ok (row.1 len))

/-! ## Notification decoder -/

/-- R126 `FD.PARSE`: the four cases, the raw case and the short case, all twelve registers each time. -/
def Obligations.FdParseDecodesByIdentifier : Prop :=
  (∀ (sp : BitVec 8) (a d : Word), decode (.op (opWord 0x38 sp a d)) = .ok (.fdParse (a.setWidth 8) d)) ∧
  ∀ (s : State) (cmd : Byte) (n : Word),
    (s.params.notifMax < n.toNat → exec (.fdParse cmd n) s = .next (refused s .eRange)) ∧
    (n.toNat ≤ s.params.notifMax →
      let f := fun i => s.readByte .ntf i
      (cmd = 0xA1 → 14 ≤ n.toNat → exec (.fdParse cmd n) s = .next (decoded s
        { ndOf .status cmd n 0b10 with batt := f 9, temp := f 10, stat := f 12, sdet := f 13 } 1)) ∧
      (cmd = 0xAB → 7 ≤ n.toNat → exec (.fdParse cmd n) s = .next (decoded s
        { ndOf .battery cmd n 0b10 with batt := f 6 } 2)) ∧
      (cmd = 0xB1 → 15 ≤ n.toNat → exec (.fdParse cmd n) s = .next (decoded s
        { ndOf .version cmd n 0b10 with
          verlo := (f 6).setWidth 32 + ((f 7).setWidth 32 <<< 8) + ((f 8).setWidth 32 <<< 16) + ((f 9).setWidth 32 <<< 24)
          verhi := (f 10).setWidth 32 + ((f 11).setWidth 32 <<< 8) + ((f 12).setWidth 32 <<< 16) +
            ((f 13).setWidth 32 <<< 24)
          ptype := f 14 } 3)) ∧
      (cmd = 0xAA → 7 ≤ n.toNat → exec (.fdParse cmd n) s = .next (decoded s
        { ndOf .complete cmd n 0b10 with succ := if f 6 = 0x00 then 1 else 0 } 4)) ∧
      (cmd ∉ [0xA1, 0xAB, 0xB1, 0xAA] → exec (.fdParse cmd n) s = .next (decoded s (ndOf .raw cmd n 0b10) 5)) ∧
      (((cmd = 0xA1 ∧ n.toNat < 14) ∨ (cmd = 0xAB ∧ n.toNat < 7) ∨ (cmd = 0xB1 ∧ n.toNat < 15) ∨
          (cmd = 0xAA ∧ n.toNat < 7)) →
        exec (.fdParse cmd n) s = .next (decoded s (ndOf .raw cmd n 0b11) 5)))

/-- R127 `FD.NOTIFY`: the identifier from byte 2, or RAW with `CMDV` = 0 when there is no byte 2. -/
def Obligations.FdNotifyTakesByteTwo : Prop :=
  (∀ (sp : BitVec 8) (a d : Word), decode (.op (opWord 0x39 sp a d)) = .ok (.fdNotify d)) ∧
  ∀ (s : State) (n : Word),
    (s.params.notifMax < n.toNat → exec (.fdNotify n) s = .next (refused s .eRange)) ∧
    (n.toNat ≤ s.params.notifMax → 3 ≤ n.toNat →
      ∃ t, exec (.fdNotify n) s = .next t ∧ exec (.fdParse (s.readByte .ntf 2) n) s = .next t) ∧
    (n.toNat ≤ s.params.notifMax → n.toNat < 3 →
      exec (.fdNotify n) s = .next (decoded s (ndOf .raw 0x00 n 0b01) 5))

/-- R126, R127: a decode reads no byte but those of its case, and none of a notification too short for it; `FD.NOTIFY`
reads byte 2 before, when there is one. Two states that agree on those bytes, on the registers and on the sizes answer
with the same registers and the same result. That VERSION reads bytes 7, 8 and 11 is log entry 8 (DEDUCED): a sentence
of R78 says otherwise. -/
def Obligations.DecodeReadsOnlyItsFields : Prop :=
  ∀ (s s' : State) (n : Word), s'.regs = s.regs → s'.params = s.params →
    (∀ cmd : Byte, (∀ i ∈ decodeReads cmd n.toNat, s'.readByte .ntf i = s.readByte .ntf i) →
      ∃ t t', exec (.fdParse cmd n) s = .next t ∧ exec (.fdParse cmd n) s' = .next t' ∧
        t'.regs = t.regs ∧ t'.result = t.result) ∧
    ((3 ≤ n.toNat → ∀ i ∈ 2 :: decodeReads (s.readByte .ntf 2) n.toNat, s'.readByte .ntf i = s.readByte .ntf i) →
      ∃ t t', exec (.fdNotify n) s = .next t ∧ exec (.fdNotify n) s' = .next t' ∧
        t'.regs = t.regs ∧ t'.result = t.result)

/-! ## Halftone converter -/

/-- R151 `HT.START`, with R140: the configuration is checked, the output range zeroed, the sequencer set to pixel
(0, 0), and nothing else changed. -/
def Obligations.HtStartBeginsAConversion : Prop :=
  (∀ (sp : BitVec 8) (a d : Word), decode (.op (opWord 0x40 sp a d)) = .ok .htStart) ∧
  ∀ s : State,
    (¬ Legal s → exec .htStart s = .next (refused s .eCfg)) ∧
    (Legal s →
      ∃ t, exec .htStart s = .next t ∧ t.result = some { st := .ok, r := 0 } ∧
        t.regs = { s.regs with htX := 0, htY := 0, htState := .run } ∧ SameOutside s t ∧
        ∀ sp a, t.readByte sp a = if sp = .pck ∧ a < BPL s * H s then 0x00 else s.readByte sp a)

/-- R148, R152: a carried out `HT.STEP` advances the sequencer in raster order, returns the new `HT_STATE`, and
leaves every other register and the memories PAY, FRM and NTF as they were; outside RUN it is refused. What it does to
PCK and PIX is in HtStepPacksMonochrome, HtStepPacksGrayscale and HtStepDiffusesTheError. -/
def Obligations.HtStepAdvancesInRasterOrder : Prop :=
  (∀ (sp : BitVec 8) (a d : Word), decode (.op (opWord 0x41 sp a d)) = .ok .htStep) ∧
  (∀ s : State, s.regs.htState ≠ .run → exec .htStep s = .next (refused s .eState)) ∧
  (∀ s : State, Running s →
    ∃ t, exec .htStep s = .next t ∧ t.regs = advanced s ∧
      t.result = some { st := .ok, r := if X s + 1 < W s ∨ Y s + 1 < H s then 1 else 2 } ∧ SameOutside s t ∧
      ∀ sp a, sp ≠ .pix → sp ≠ .pck → t.readByte sp a = s.readByte sp a)

/-- R143: in monochrome a step sets bit `x mod 8` of one packed byte exactly when the brightness is 128 or more. -/
def Obligations.HtStepPacksMonochrome : Prop :=
  ∀ s : State, Running s → s.regs.htMode = 0x00 →
    ∃ t, exec .htStep s = .next t ∧
      ∀ a, t.readByte .pck a =
        if a = Y s * BPL s + X s / 8 ∧ 128 ≤ br s then s.readByte .pck a ||| ((1 : Byte) <<< (X s % 8))
        else s.readByte .pck a

/-- R144: in grayscale a step ORs the level into its nibble: the even pixel to bits 7:4, the odd one to bits 3:0. -/
def Obligations.HtStepPacksGrayscale : Prop :=
  ∀ s : State, Running s → s.regs.htMode = 0x02 →
    ∃ t, exec .htStep s = .next t ∧
      ∀ a, t.readByte .pck a =
        if a = Y s * BPL s + X s / 2 then
          s.readByte .pck a |||
            (BitVec.ofNat 8 (min (16 * ((br s + 8) / 16)) 255 / 16) <<< (if X s % 2 = 0 then 4 else 0))
        else s.readByte .pck a

/-- R147: what a step does to every byte of PIX: the colour channels of the neighbours in the raster take the
clamped value (before the clamp in -55..311), every other byte (the pixel itself, all alpha bytes, everything beyond
the raster) stays. -/
def Obligations.HtStepDiffusesTheError : Prop :=
  ∀ s : State, Running s →
    ∃ t, exec .htStep s = .next t ∧
      (∀ nx ny c, nx < W s → ny < H s → c < 3 → weight (X s) (Y s) nx ny ≠ 0 →
        ((t.readByte .pix (channel s nx ny c)).toNat : Int) =
          diffused (average s nx ny) (err s) (weight (X s) (Y s) nx ny) ∧
        -55 ≤ (average s nx ny : Int) - Int.fdiv (err s * weight (X s) (Y s) nx ny) 16 ∧
        (average s nx ny : Int) - Int.fdiv (err s * weight (X s) (Y s) nx ny) 16 ≤ 311) ∧
      (∀ a, (∀ nx ny c, nx < W s → ny < H s → c < 3 → weight (X s) (Y s) nx ny ≠ 0 → a ≠ channel s nx ny c) →
        t.readByte .pix a = s.readByte .pix a)

/-- R142 to R144, R146, R147, R156: the ranges of the model's pixel arithmetic: the average and the brightness of any
pixel; the levels and the errors of each mode (grayscale -8 only at a tie, -7..0 when the level is 255); the products
and the terms of the four targets, and the value before the clamp that `State.diffuseTo` computes; and the clamp. -/
def Obligations.PixelArithmeticRanges : Prop :=
  (∀ (s : State) (x y : Nat), s.pixelAvg x y ≤ 255 ∧ brightness (s.pixelAvg x y) ≤ 255) ∧
  (∀ b ≤ 255,
    ((b < 128 ∧ monoLevel b = 0 ∧ diffusionError b (monoLevel b) = b) ∨
      (128 ≤ b ∧ monoLevel b = 255 ∧ diffusionError b (monoLevel b) = (b : Int) - 255)) ∧
    grayLevel b ≤ 255 ∧ -8 ≤ diffusionError b (grayLevel b) ∧ diffusionError b (grayLevel b) ≤ 7 ∧
    (diffusionError b (grayLevel b) = -8 → b % 16 = 8) ∧
    (grayLevel b = 255 → -7 ≤ diffusionError b (grayLevel b) ∧ diffusionError b (grayLevel b) ≤ 0)) ∧
  (∀ (s : State), ∀ b ≤ 255,
    s.quantise b ≤ 255 ∧ -127 ≤ diffusionError b (s.quantise b) ∧ diffusionError b (s.quantise b) ≤ 127) ∧
  (∀ e : Int, -127 ≤ e → e ≤ 127 → ∀ t ∈ diffusionTargets,
    -889 ≤ e * (t.2.2 : Int) ∧ e * (t.2.2 : Int) ≤ 889 ∧ -56 ≤ diffusionTerm e t.2.2 ∧ diffusionTerm e t.2.2 ≤ 55 ∧
    ∀ (s : State) (x y : Nat), -55 ≤ (s.pixelAvg x y : Int) - diffusionTerm e t.2.2 ∧
      (s.pixelAvg x y : Int) - diffusionTerm e t.2.2 ≤ 311) ∧
  ∀ v : Int, ((clampByte v).toNat : Int) = max 0 (min 255 v)

/-- R153, R27: in RUN, `HT.RUN` ends in DONE with X = 0 and Y = H, returns 2, and leaves every other register and the
memories PAY, FRM and NTF as they were. What it does to PCK and PIX is in HtRunIsSteppingToTheEnd. -/
def Obligations.HtRunFinishesTheConversion : Prop :=
  ∀ s : State, Running s →
    ∃ t, exec .htRun s = .next t ∧ t.result = some { st := .ok, r := 2 } ∧
      t.regs = { s.regs with htX := 0, htY := s.regs.htH, htState := .done } ∧ SameOutside s t ∧
      ∀ sp a, sp ≠ .pix → sp ≠ .pck → t.readByte sp a = s.readByte sp a

/-- R153 `HT.RUN`: outside RUN refused; in RUN exactly `W·H − (Y·W + X)` times `HT.STEP`, the state being RUN before
each of them, ending in DONE with `r = 2`; and stepping some of the way and then running gives the same. -/
def Obligations.HtRunIsSteppingToTheEnd : Prop :=
  (∀ (sp : BitVec 8) (a d : Word), decode (.op (opWord 0x42 sp a d)) = .ok .htRun) ∧
  (∀ s : State, s.regs.htState ≠ .run → exec .htRun s = .next (refused s .eState)) ∧
  (∀ s : State, Running s →
    1 ≤ W s * H s - (Y s * W s + X s) ∧
    ∃ t, stepTimes (W s * H s - (Y s * W s + X s)) s = some t ∧ exec .htRun s = .next t ∧
      t.result = some { st := .ok, r := 2 } ∧ t.regs.htState = .done ∧
      ∀ k < W s * H s - (Y s * W s + X s), ∃ u, stepTimes k s = some u ∧ Running u ∧ exec .htRun u = .next t)

/-- R154 `HT.CONVERT`: `HT.START` followed by `HT.RUN` as one operation, returning `BPL·H`. -/
def Obligations.HtConvertIsStartThenRun : Prop :=
  (∀ (sp : BitVec 8) (a d : Word), decode (.op (opWord 0x43 sp a d)) = .ok .htConvert) ∧
  (∀ s : State, ¬ Legal s → exec .htConvert s = .next (refused s .eCfg)) ∧
  (∀ s : State, Legal s →
    ∃ t u, exec .htStart s = .next t ∧ exec .htRun t = .next u ∧
      exec .htConvert s = .next (ok u (BitVec.ofNat 32 (BPL s * H s))))

/-- R155 (b), (d): an all-white image converts to all-zero bytes in both modes, and stays white. -/
def Obligations.WhiteImageConvertsToZeros : Prop :=
  ∀ s : State, Legal s →
    (∀ x y c, x < W s → y < H s → c < 3 → s.readByte .pix (channel s x y c) = 0xFF) →
    ∃ t, exec .htConvert s = .next t ∧ (∀ a < BPL s * H s, t.readByte .pck a = 0x00) ∧
      ∀ a, t.readByte .pix a = s.readByte .pix a

/-- R155 (c), (d): an all-black image converts to all-ones bytes in both modes, and stays black. -/
def Obligations.BlackImageConvertsToOnes : Prop :=
  ∀ s : State, Legal s →
    (∀ x y c, x < W s → y < H s → c < 3 → s.readByte .pix (channel s x y c) = 0x00) →
    ∃ t, exec .htConvert s = .next t ∧ (∀ a < BPL s * H s, t.readByte .pck a = 0xFF) ∧
      ∀ a, t.readByte .pix a = s.readByte .pix a

/-- R152: once the sequencer has passed a line, neither `HT.STEP` nor `HT.RUN` writes that packed line again. -/
def Obligations.PassedLinesAreFinal : Prop :=
  ∀ s : State, Running s →
    (∃ t, exec .htStep s = .next t ∧ ∀ a < Y s * BPL s, t.readByte .pck a = s.readByte .pck a) ∧
    (∃ t, exec .htRun s = .next t ∧ ∀ a < Y s * BPL s, t.readByte .pck a = s.readByte .pck a)

/-! ## The whole machine -/

/-- Every step keeps the invariant: canonical memories within their spaces, R27's sequencer invariant, a legal
`FE_FLEN`, the `ND_*` registers zero before the first decode. -/
def Obligations.StepKeepsTheInvariant : Prop := ∀ s t : State, s.Inv → step s = .next t → t.Inv

/-- The invariant holds after power-on reset of every implementation (R6, R200), and at
`State.reset`, which has the suggested sizes (log entry 5). -/
def Obligations.PowerOnMeetsTheInvariant : Prop :=
  (∀ (p : Params) (k : Nat), p.legal → (State.powerOn p k).Inv) ∧ State.reset.Inv

/-- R160: "every operation is defined in every state": every operation word presented in a state that meets the
invariant is carried out or refused with a result word, and never stops the machine. -/
def Obligations.EveryOperationWordIsAnswered : Prop :=
  ∀ (s : State) (w : OpWord), s.Inv →
    ∃ t res, step (s.present (.op w)) = .next t ∧ t.result = some res ∧ SameOutside s t

/-- R182, R183: the status of every operation word with a reserved selector and of every operation, with its cause
and in the order of priority, and `r` = 0 with every status but `OK`. The status of the ten FRAME rows is that of the
`FE.BUILD` they stand for, which is the model's choice (log entry 2). -/
def Obligations.StatusOfEveryInstruction : Prop :=
  (∀ (s : State) (w : OpWord), opSel w ∉ selectors →
    ∃ t, step (s.present (.op w)) = .next t ∧ t.result = some { st := .eOp, r := 0 }) ∧
  ∀ (s : State) (i : Instr), s.Inv →
    ∃ t r, exec i s = .next t ∧ t.result = some { st := statusOf s i, r := r } ∧ (statusOf s i ≠ .ok → r = 0)

/-- R181: a refused operation returns `r = 0` and changes no register and no memory byte: but for the result word
(the model's `result`, log entry 4) it is a `NOP`. -/
def Obligations.RefusedOperationChangesNothing : Prop :=
  ∀ (s t : State) (w : OpWord) (res : Machine.Result), step (s.present (.op w)) = .next t → t.result = some res →
    res.st ≠ .ok → res.r = 0 ∧ t = refused s res.st

/-- R180: no byte of any memory can make an operation fail: where an instruction answers a next state it does so,
with the same status, in every state with the same registers and sizes, whatever its memories hold. -/
def Obligations.NoDataMakesAnOperationFail : Prop :=
  ∀ (s s' t : State) (i : Instr), s'.regs = s.regs → s'.params = s.params → exec i s = .next t →
    ∃ t', exec i s' = .next t' ∧ t'.result.map Machine.Result.st = t.result.map Machine.Result.st

/-- R202: `SYS.RESET` has the effect of the power-on reset on the registers, leaves every memory byte, and "is the only
operation that can leave `HT_STATE = RUN` other than by finishing or restarting the conversion". -/
def Obligations.OnlyResetAbandonsAConversion : Prop :=
  (∀ s : State, ∃ t, exec .sysReset s = .next t ∧ t.regs = (State.powerOn s.params s.powerUp).regs ∧
    ∀ sp a, t.readByte sp a = s.readByte sp a) ∧
  ∀ (s t : State) (i : Instr), s.regs.htState = .run → exec i s = .next t → t.regs.htState ≠ .run →
    (i = .sysReset ∧ t.regs.htState = .idle) ∨
    ((i = .htStep ∨ i = .htRun ∨ i = .htConvert) ∧ t.regs.htState = .done)

/-- R23, column "written by", with R25, R28 and R210: which instructions change which registers. A build is `FE.BUILD`
or, by the model's choice (log entry 2), a FRAME row. -/
def Obligations.RegistersChangeOnlyByTheirWriters : Prop :=
  ∀ (s t : State) (i : Instr), exec i s = .next t → i ≠ .sysReset →
    (t.regs.crcAcc ≠ s.regs.crcAcc →
      i = .crcClr ∨ (∃ b, i = .crcByte b) ∨ (∃ sp a n, i = .crcBuf sp a n) ∨ (∃ n, i = .feCheck n) ∨
      ∃ len, BuildsFrame i len) ∧
    (t.regs.feFlen ≠ s.regs.feFlen → ∃ len, BuildsFrame i len) ∧
    ((t.regs.htW ≠ s.regs.htW ∨ t.regs.htH ≠ s.regs.htH ∨ t.regs.htBpl ≠ s.regs.htBpl ∨ t.regs.htMode ≠ s.regs.htMode) →
      ∃ rn v, i = .regWr rn v ∧ rn ∈ readWriteNumbers) ∧
    ((t.regs.htX ≠ s.regs.htX ∨ t.regs.htY ≠ s.regs.htY ∨ t.regs.htState ≠ s.regs.htState) →
      i = .htStart ∨ i = .htStep ∨ i = .htRun ∨ i = .htConvert) ∧
    (t.regs.nd ≠ s.regs.nd → (∃ cmd n, i = .fdParse cmd n) ∨ ∃ n, i = .fdNotify n)

/-- R56: "No operation touches a byte outside these ranges": every byte an instruction changes lies in a range that
R56 gives it to write. A FRAME row has the range of the `FE.BUILD` it stands for (the model's choice, log entry 2). -/
def Obligations.BytesChangeOnlyInTheirRanges : Prop :=
  ∀ (s t : State) (i : Instr), exec i s = .next t →
    ∀ sp a, ¬ MayWrite s i sp a → t.readByte sp a = s.readByte sp a

/-- The sizes (R6, R55), the power-on (log entry 1) and what the host presents next are changed by no instruction. -/
def Obligations.NoInstructionChangesTheImplementation : Prop :=
  ∀ (s t : State) (i : Instr), exec i s = .next t → SameOutside s t

/-- The fault of log entry 6 is only `HT.STEP`'s and `HT.RUN`'s, in RUN with R27's invariant broken; no state that
meets the invariant has it. -/
def Obligations.FaultOnlyOutsideTheInvariant : Prop :=
  ∀ (s : State) (i : Instr) (f : Fault), exec i s = .fault f →
    (i = .htStep ∨ i = .htRun) ∧ s.regs.htState = .run ∧ ¬ Running s ∧ ¬ s.Inv

end
end

