-- ==== Sys2Proof/Laws/State.lean ====
section
/-! SUPPORT. One lemma per field of the state per update, so that no later proof unfolds a record update. -/

namespace Sys2Proof.Machine

section memories
variable (ms : Memories) (m : Memory)

@[simp] theorem Memories.get_set_same (sp : Space) : (ms.set sp m).get sp = m := by cases sp <;> rfl

@[simp] theorem Memories.get_set_other {sp sp' : Space} (h : sp' ≠ sp) : (ms.set sp m).get sp' = ms.get sp' := by
  cases sp <;> cases sp' <;> first | rfl | exact absurd rfl h

theorem Memories.ext_get {ms ms' : Memories} (h : ∀ sp, ms.get sp = ms'.get sp) : ms = ms' := by
  obtain ⟨a, b, c, d, e⟩ := ms
  obtain ⟨a', b', c', d', e'⟩ := ms'
  have h1 : a = a' := h .pay
  have h2 : b = b' := h .frm
  have h3 : c = c' := h .ntf
  have h4 : d = d' := h .pix
  have h5 : e = e' := h .pck
  rw [h1, h2, h3, h4, h5]
end memories

section writeByte
variable (s : State) (sp : Space) (a : Nat) (b : Byte)
@[simp] theorem State.writeByte_regs : (s.writeByte sp a b).regs = s.regs := rfl
@[simp] theorem State.writeByte_result : (s.writeByte sp a b).result = s.result := rfl
@[simp] theorem State.writeByte_port : (s.writeByte sp a b).port = s.port := rfl
@[simp] theorem State.writeByte_params : (s.writeByte sp a b).params = s.params := rfl
@[simp] theorem State.writeByte_powerUp : (s.writeByte sp a b).powerUp = s.powerUp := rfl
@[simp] theorem State.writeByte_size (sp' : Space) : (s.writeByte sp a b).size sp' = s.size sp' := rfl
@[simp] theorem State.writeByte_get_same :
    (s.writeByte sp a b).mem.get sp = Memory.write (s.mem.get sp) a b := by simp [State.writeByte]
@[simp] theorem State.writeByte_get_other {sp' : Space} (h : sp' ≠ sp) :
    (s.writeByte sp a b).mem.get sp' = s.mem.get sp' := by simp [State.writeByte, h]
end writeByte

section setCrc
variable (s : State) (c : Byte)
@[simp] theorem State.setCrc_regs : (s.setCrc c).regs = { s.regs with crcAcc := c } := rfl
@[simp] theorem State.setCrc_mem : (s.setCrc c).mem = s.mem := rfl
@[simp] theorem State.setCrc_result : (s.setCrc c).result = s.result := rfl
@[simp] theorem State.setCrc_port : (s.setCrc c).port = s.port := rfl
@[simp] theorem State.setCrc_params : (s.setCrc c).params = s.params := rfl
@[simp] theorem State.setCrc_powerUp : (s.setCrc c).powerUp = s.powerUp := rfl
end setCrc

section present
variable (s : State) (item : PortItem)
@[simp] theorem State.present_regs : (s.present item).regs = s.regs := rfl
@[simp] theorem State.present_mem : (s.present item).mem = s.mem := rfl
@[simp] theorem State.present_result : (s.present item).result = s.result := rfl
@[simp] theorem State.present_port : (s.present item).port = item :: s.port := rfl
@[simp] theorem State.present_params : (s.present item).params = s.params := rfl
@[simp] theorem State.present_powerUp : (s.present item).powerUp = s.powerUp := rfl
@[simp] theorem State.accept_present : (s.present item).accept = some (item, s) := rfl
end present

section powerOn
variable (p : Params) (k : Nat)
@[simp] theorem State.powerOn_regs : (State.powerOn p k).regs = Regs.reset := rfl
@[simp] theorem State.powerOn_result : (State.powerOn p k).result = none := rfl
@[simp] theorem State.powerOn_port : (State.powerOn p k).port = [] := rfl
@[simp] theorem State.powerOn_params : (State.powerOn p k).params = p := rfl
@[simp] theorem State.powerOn_powerUp : (State.powerOn p k).powerUp = k := rfl
@[simp] theorem State.powerOn_get (sp : Space) : (State.powerOn p k).mem.get sp = [] := by cases sp <;> rfl
end powerOn

/-! Two states with the same memories and the same power-on read the same bytes, and sizes come from `params`
alone. -/

theorem State.readByte_congr {s t : State} (hm : t.mem = s.mem) (hp : t.powerUp = s.powerUp) (sp : Space) (a : Nat) :
    t.readByte sp a = s.readByte sp a := by
  simp [State.readByte, State.unwrittenByte, hm, hp]

theorem State.size_congr {s t : State} (h : t.params = s.params) (sp : Space) : t.size sp = s.size sp := by
  simp [State.size, h]

@[simp] theorem State.readByte_with_regs (s : State) (g : Regs) (sp : Space) (a : Nat) :
    State.readByte { s with regs := g } sp a = s.readByte sp a := rfl

@[simp] theorem State.readByte_with_result (s : State) (r : Option Result) (sp : Space) (a : Nat) :
    State.readByte { s with result := r } sp a = s.readByte sp a := rfl

@[simp] theorem State.readByte_setCrc (s : State) (c : Byte) (sp : Space) (a : Nat) :
    (s.setCrc c).readByte sp a = s.readByte sp a := rfl

end Sys2Proof.Machine
end

