-- ==== Sys2Proof/Laws/Memory.lean ====
section
/-! SUPPORT. The laws of reading and writing memory: a read after a write to the same place gives the value
written, a write leaves every other place alone, and every memory operation keeps the canonical form. -/

namespace Sys2Proof.Machine

/-! ## One memory -/

@[simp] theorem Memory.byteAt_write_same (m : Memory) (a : Nat) (b : Byte) :
    Memory.byteAt (Memory.write m a b) a = some b := by
  induction m with
  | nil => simp [Memory.write, Memory.byteAt]
  | cons c m ih =>
    obtain ⟨k, v⟩ := c
    simp only [Memory.write]
    split
    · simp [Memory.byteAt]
    · split
      · simp [Memory.byteAt]
      · rename_i _ hne
        simp [Memory.byteAt, hne, ih]

theorem Memory.byteAt_write_other (m : Memory) {a a' : Nat} (b : Byte) (h : a' ≠ a) :
    Memory.byteAt (Memory.write m a b) a' = Memory.byteAt m a' := by
  induction m with
  | nil => simp [Memory.write, Memory.byteAt, h]
  | cons c m ih =>
    obtain ⟨k, v⟩ := c
    simp only [Memory.write]
    split
    · simp [Memory.byteAt, h]
    · split
      · rename_i _ hk
        subst hk
        simp [Memory.byteAt, h]
      · simp [Memory.byteAt, ih]

theorem Memory.mem_write {m : Memory} {a : Nat} {b : Byte} {c : Host.Cell} (h : c ∈ Memory.write m a b) :
    c = (a, b) ∨ c ∈ m := by
  induction m with
  | nil => simpa [Memory.write] using h
  | cons d m ih =>
    obtain ⟨k, v⟩ := d
    simp only [Memory.write] at h
    split at h
    · simpa using h
    · split at h
      · rcases List.mem_cons.mp h with h | h
        · exact .inl h
        · exact .inr (List.mem_cons_of_mem _ h)
      · rcases List.mem_cons.mp h with h | h
        · exact .inr (h ▸ List.mem_cons_self)
        · rcases ih h with h | h
          · exact .inl h
          · exact .inr (List.mem_cons_of_mem _ h)

/-- A write keeps the canonical form. -/
theorem Memory.write_wf {m : Memory} (h : m.wf) (a : Nat) (b : Byte) : (Memory.write m a b).wf := by
  induction m with
  | nil => simp [Memory.write]
  | cons c m ih =>
    obtain ⟨k, v⟩ := c
    have hk : ∀ d ∈ m, k < d.1 := fun d hd => List.rel_of_pairwise_cons h hd
    have hm : Memory.wf m := List.Pairwise.of_cons h
    simp only [Memory.write]
    split
    · rename_i hlt
      refine List.pairwise_cons.mpr ⟨fun d hd => ?_, h⟩
      rcases List.mem_cons.mp hd with rfl | hd
      · exact hlt
      · exact Nat.lt_trans hlt (hk _ hd)
    · split
      · rename_i _ heq
        subst heq
        exact List.pairwise_cons.mpr ⟨fun d hd => hk _ hd, hm⟩
      · refine List.pairwise_cons.mpr ⟨fun d hd => ?_, ih hm⟩
        rcases Memory.mem_write hd with rfl | hd
        · show k < a
          omega
        · exact hk _ hd

/-! ## Reading and writing bytes of the state -/

@[simp] theorem State.readByte_writeByte_same (s : State) (sp : Space) (a : Nat) (b : Byte) :
    (s.writeByte sp a b).readByte sp a = b := by
  simp [State.readByte]

theorem State.readByte_writeByte_other (s : State) {sp sp' : Space} {a a' : Nat} (b : Byte)
    (h : sp' ≠ sp ∨ a' ≠ a) : (s.writeByte sp a b).readByte sp' a' = s.readByte sp' a' := by
  by_cases hs : sp' = sp
  · subst hs
    have ha : a' ≠ a := by simpa using h
    simp [State.readByte, State.unwrittenByte, Memory.byteAt_write_other _ _ ha]
  · simp [State.readByte, State.unwrittenByte, hs]

section writeRange
variable (s : State) (sp : Space)
@[simp] theorem State.writeRange_regs (a : Nat) (bs : List Byte) : (s.writeRange sp a bs).regs = s.regs := by
  induction bs generalizing s a with
  | nil => rfl
  | cons b bs ih => simp [State.writeRange, ih]
@[simp] theorem State.writeRange_result (a : Nat) (bs : List Byte) : (s.writeRange sp a bs).result = s.result := by
  induction bs generalizing s a with
  | nil => rfl
  | cons b bs ih => simp [State.writeRange, ih]
@[simp] theorem State.writeRange_port (a : Nat) (bs : List Byte) : (s.writeRange sp a bs).port = s.port := by
  induction bs generalizing s a with
  | nil => rfl
  | cons b bs ih => simp [State.writeRange, ih]
@[simp] theorem State.writeRange_params (a : Nat) (bs : List Byte) : (s.writeRange sp a bs).params = s.params := by
  induction bs generalizing s a with
  | nil => rfl
  | cons b bs ih => simp [State.writeRange, ih]
@[simp] theorem State.writeRange_powerUp (a : Nat) (bs : List Byte) :
    (s.writeRange sp a bs).powerUp = s.powerUp := by
  induction bs generalizing s a with
  | nil => rfl
  | cons b bs ih => simp [State.writeRange, ih]
theorem State.writeRange_get_other {sp' : Space} (h : sp' ≠ sp) (a : Nat) (bs : List Byte) :
    (s.writeRange sp a bs).mem.get sp' = s.mem.get sp' := by
  induction bs generalizing s a with
  | nil => rfl
  | cons b bs ih => simp [State.writeRange, ih, h]
end writeRange

/-- Everything a range write does to a read. -/
theorem State.readByte_writeRange (s : State) (sp : Space) (a : Nat) (bs : List Byte) (sp' : Space) (a' : Nat) :
    (s.writeRange sp a bs).readByte sp' a' =
      if sp' = sp ∧ a ≤ a' then (bs[a' - a]?).getD (s.readByte sp' a') else s.readByte sp' a' := by
  induction bs generalizing s a with
  | nil => simp [State.writeRange]
  | cons b bs ih =>
    rw [State.writeRange, ih]
    by_cases hs : sp' = sp
    · subst hs
      rcases Nat.lt_trichotomy a' a with h | h | h
      · rw [if_neg (by omega), if_neg (by omega), State.readByte_writeByte_other _ _ (.inr (by omega))]
      · subst h
        rw [if_neg (by omega), if_pos (by simp)]
        simp
      · rw [if_pos ⟨rfl, by omega⟩, if_pos ⟨rfl, by omega⟩,
          State.readByte_writeByte_other _ _ (.inr (by omega))]
        obtain ⟨k, hk⟩ : ∃ k, a' - a = k + 1 := ⟨a' - a - 1, by omega⟩
        rw [hk, List.getElem?_cons_succ, show a' - (a + 1) = k by omega]
    · rw [if_neg (fun h => hs h.1), if_neg (fun h => hs h.1), State.readByte_writeByte_other _ _ (.inl hs)]

/-- A range write leaves every byte outside the range alone. -/
theorem State.readByte_writeRange_outside (s : State) {sp sp' : Space} {a a' : Nat} {bs : List Byte}
    (h : sp' ≠ sp ∨ a' < a ∨ a + bs.length ≤ a') :
    (s.writeRange sp a bs).readByte sp' a' = s.readByte sp' a' := by
  rw [State.readByte_writeRange]
  split
  · rename_i hc
    rw [List.getElem?_eq_none (by rcases h with h | h | h <;> [exact absurd hc.1 h; omega; omega])]
    rfl
  · rfl

@[simp] theorem State.readRange_length (s : State) (sp : Space) (a n : Nat) : (s.readRange sp a n).length = n := by
  induction n generalizing a with
  | zero => rfl
  | succ n ih => simp [State.readRange, ih]

theorem State.readRange_getElem? (s : State) (sp : Space) (a n i : Nat) (h : i < n) :
    (s.readRange sp a n)[i]? = some (s.readByte sp (a + i)) := by
  induction n generalizing a i with
  | zero => omega
  | succ n ih =>
    cases i with
    | zero => rfl
    | succ i =>
      rw [State.readRange, List.getElem?_cons_succ, ih (a + 1) i (by omega)]
      congr 2
      omega

theorem State.readRange_congr {s t : State} {sp : Space} {a n : Nat}
    (h : ∀ i, i < n → t.readByte sp (a + i) = s.readByte sp (a + i)) :
    t.readRange sp a n = s.readRange sp a n := by
  induction n generalizing a with
  | zero => rfl
  | succ n ih =>
    rw [State.readRange, State.readRange]
    congr 1
    · simpa using h 0 (by omega)
    · apply ih
      intro i hi
      have := h (i + 1) (by omega)
      rwa [show a + 1 + i = a + (i + 1) by omega]

theorem State.readRange_append (s : State) (sp : Space) (a n k : Nat) :
    s.readRange sp a (n + k) = s.readRange sp a n ++ s.readRange sp (a + n) k := by
  induction n generalizing a with
  | zero => simp [State.readRange]
  | succ n ih =>
    rw [show n + 1 + k = (n + k) + 1 by omega, State.readRange, State.readRange, ih]
    simp [show a + 1 + n = a + (n + 1) by omega]

/-- Reading back a range just written. -/
theorem State.readRange_writeRange_same (s : State) (sp : Space) (a : Nat) (bs : List Byte) (n : Nat)
    (h : n ≤ bs.length) : (s.writeRange sp a bs).readRange sp a n = bs.take n := by
  apply List.ext_getElem?
  intro i
  by_cases hi : i < n
  · rw [State.readRange_getElem? _ _ _ _ _ hi, State.readByte_writeRange, if_pos ⟨rfl, by omega⟩,
      List.getElem?_take_of_lt hi, show a + i - a = i by omega, List.getElem?_eq_getElem (by omega)]
    rfl
  · rw [List.getElem?_eq_none (by simp; omega), List.getElem?_eq_none (by simp; omega)]

end Sys2Proof.Machine
end

