-- ==== Sys2Proof/Laws/Decode.lean ====
section
/-! SUPPORT. The fields of an assembled operation word, and the tables of identifiers read both ways. -/

namespace Sys2Proof

section fields
variable (sel sp : BitVec 8) (a d : Word)

theorem opSel_opWord : opSel (opWord sel sp a d) = sel := by
  apply BitVec.eq_of_getLsbD_eq
  intro i hi
  simp only [opSel, opWord, BitVec.getLsbD_extractLsb', BitVec.getLsbD_append]
  simp [hi, show ¬ (72 + i < 32) by omega, show ¬ (72 + i - 32 < 32) by omega, show ¬ (72 + i - 32 - 32 < 8) by omega,
    show 72 + i - 32 - 32 - 8 = i by omega]

theorem opSp_opWord : opSp (opWord sel sp a d) = sp := by
  apply BitVec.eq_of_getLsbD_eq
  intro i hi
  simp only [opSp, opWord, BitVec.getLsbD_extractLsb', BitVec.getLsbD_append]
  simp [hi, show ¬ (64 + i < 32) by omega, show ¬ (64 + i - 32 < 32) by omega,
    show 64 + i - 32 - 32 = i by omega]

theorem opA_opWord : opA (opWord sel sp a d) = a := by
  apply BitVec.eq_of_getLsbD_eq
  intro i hi
  simp only [opA, opWord, BitVec.getLsbD_extractLsb', BitVec.getLsbD_append]
  simp [hi, show ¬ (32 + i < 32) by omega]

theorem opD_opWord : opD (opWord sel sp a d) = d := by
  apply BitVec.eq_of_getLsbD_eq
  intro i hi
  simp only [opD, opWord, BitVec.getLsbD_extractLsb', BitVec.getLsbD_append]
  simp [hi]
end fields

theorem lowByte_setWidth (b : Byte) : lowByte (b.setWidth 32) = b := by
  apply BitVec.eq_of_getLsbD_eq
  intro i hi
  simp [lowByte, hi]
  omega

theorem lowHalf_setWidth (v : BitVec 16) : lowHalf (v.setWidth 32) = v := by
  apply BitVec.eq_of_getLsbD_eq
  intro i hi
  simp [lowHalf, hi]
  omega

theorem ite_cases {α : Type} {c : Prop} [Decidable c] {x a b : α} (h : x = if c then a else b) :
    (c ∧ x = a) ∨ x = b := by
  by_cases hc : c
  · exact .inl ⟨hc, by rw [h, if_pos hc]⟩
  · exact .inr (by rw [h, if_neg hc])

/-- Everything the decoder can read from an operation word (R73). -/
theorem decodeOp_cases (w : OpWord) :
    (opSel w = 0x00 ∧ decodeOp w = .ok .nop) ∨
    (opSel w = 0x01 ∧ decodeOp w = .ok .sysReset) ∨
    (opSel w = 0x08 ∧ decodeOp w = .ok (.regRd (lowByte (opA w)))) ∨
    (opSel w = 0x09 ∧ decodeOp w = .ok (.regWr (lowByte (opA w)) (opD w))) ∨
    (opSel w = 0x10 ∧ decodeOp w = .ok (.memRd (opSp w) (opA w))) ∨
    (opSel w = 0x11 ∧ decodeOp w = .ok (.memWr (opSp w) (opA w) (lowByte (opD w)))) ∨
    (opSel w = 0x20 ∧ decodeOp w = .ok .crcClr) ∨
    (opSel w = 0x21 ∧ decodeOp w = .ok (.crcByte (lowByte (opD w)))) ∨
    (opSel w = 0x22 ∧ decodeOp w = .ok (.crcBuf (opSp w) (opA w) (opD w))) ∨
    (opSel w = 0x30 ∧ decodeOp w = .ok (.feBuild (lowByte (opA w)) (lowHalf (opD w)))) ∨
    (opSel w = 0x31 ∧ decodeOp w = .ok (.feCheck (opD w))) ∨
    (opSel w = 0x38 ∧ decodeOp w = .ok (.fdParse (lowByte (opA w)) (opD w))) ∨
    (opSel w = 0x39 ∧ decodeOp w = .ok (.fdNotify (opD w))) ∨
    (opSel w = 0x40 ∧ decodeOp w = .ok .htStart) ∨
    (opSel w = 0x41 ∧ decodeOp w = .ok .htStep) ∨
    (opSel w = 0x42 ∧ decodeOp w = .ok .htRun) ∨
    (opSel w = 0x43 ∧ decodeOp w = .ok .htConvert) ∨
    decodeOp w = .error (.reservedSelector (opSel w)) := by
  have h := decodeOp.eq_1 w
  exact (ite_cases h).imp_right fun h => (ite_cases h).imp_right fun h => (ite_cases h).imp_right fun h =>
    (ite_cases h).imp_right fun h => (ite_cases h).imp_right fun h => (ite_cases h).imp_right fun h =>
    (ite_cases h).imp_right fun h => (ite_cases h).imp_right fun h => (ite_cases h).imp_right fun h =>
    (ite_cases h).imp_right fun h => (ite_cases h).imp_right fun h => (ite_cases h).imp_right fun h =>
    (ite_cases h).imp_right fun h => (ite_cases h).imp_right fun h => (ite_cases h).imp_right fun h =>
    (ite_cases h).imp_right fun h => ite_cases h

/-- The two length bytes put together again (R76). -/
theorem hi_append_lo (v : BitVec 16) : (v.extractLsb' 8 8 ++ v.extractLsb' 0 8 : BitVec 16) = v := by
  apply BitVec.eq_of_getLsbD_eq
  intro i hi
  simp only [BitVec.getLsbD_append, BitVec.getLsbD_extractLsb']
  split
  · simp [*]
  · rw [show 8 + (i - 8) = i by omega]
    simp
    omega

theorem CommandId.ofCode_code (c : CommandId) : CommandId.ofCode c.code = some c := by
  cases c <;> rfl

theorem CommandId.code_of_ofCode {b : Byte} {c : CommandId} (h : CommandId.ofCode b = some c) : c.code = b := by
  unfold CommandId.ofCode at h
  repeat' split at h
  all_goals first | (injection h with h; subst h; simp_all [CommandId.code]) | exact absurd h (by simp)

namespace Machine

/-- A space identifier names a space exactly when it is not reserved (R74). -/
theorem spaceOfId_isSome (sp : BitVec 8) : (spaceOfId sp).isSome = decide (spaceAllocated sp) := by
  revert sp
  decide

/-- A register number names a register exactly when it is not reserved (R74). -/
theorem regOfNumber_isSome (rn : BitVec 8) : (regOfNumber rn).isSome = decide (registerAllocated rn) := by
  revert rn
  decide

@[simp] theorem regOfNumber_number (r : Reg) : regOfNumber r.number = some r := by cases r <;> rfl

theorem number_of_regOfNumber {rn : BitVec 8} {r : Reg} (h : regOfNumber rn = some r) : r.number = rn := by
  simpa using List.find?_some h

end Machine
end Sys2Proof
end

