-- ==== Sys2Proof/Laws/Ops.lean ====
section
/-! SUPPORT. What the shared operations can do, said once. -/

namespace Sys2Proof.Machine

/-! ## The two ways an operation ends -/

theorem State.finish_eq {s t : State} {r : Word} (h : s.finish r = .next t) :
    t = { s with result := some { st := .ok, r := r } } := by
  simpa [State.finish] using h.symm

theorem State.refuse_eq {s t : State} {c : Status} (h : s.refuse c = .next t) :
    t = { s with result := some { st := c, r := 0 } } := by
  simpa [State.refuse] using h.symm

/-! ## Memories stay canonical and within their spaces -/

/-- All five memories canonical and within their spaces. -/
def State.MemOk (s : State) : Prop := ∀ sp : Space, MemoryOk (s.mem.get sp) (s.size sp)

theorem State.MemOk.congr {s t : State} (h : s.MemOk) (hm : t.mem = s.mem) (hp : t.params = s.params) : t.MemOk := by
  intro sp
  rw [hm, State.size_congr hp]
  exact h sp

theorem State.MemOk.writeByte {s : State} (h : s.MemOk) {sp : Space} {a : Nat} (ha : a < s.size sp) (b : Byte) :
    (s.writeByte sp a b).MemOk := by
  intro sp'
  by_cases hs : sp' = sp
  · subst hs
    rw [State.writeByte_get_same, State.writeByte_size]
    refine ⟨Memory.write_wf (h sp').wf a b, fun c hc => ?_⟩
    rcases Memory.mem_write hc with rfl | hc
    · exact ha
    · exact (h sp').inSpace c hc
  · rw [State.writeByte_get_other _ _ _ _ hs, State.writeByte_size]
    exact h sp'

theorem State.MemOk.writeRange {s : State} (h : s.MemOk) {sp : Space} {a : Nat} {bs : List Byte}
    (ha : a + bs.length ≤ s.size sp) : (s.writeRange sp a bs).MemOk := by
  induction bs generalizing s a with
  | nil => exact h
  | cons b bs ih =>
    simp only [List.length_cons] at ha
    exact ih (h.writeByte (by omega) b) (by simp only [State.writeByte_size]; omega)

@[simp] theorem State.writeRange_size (s : State) (sp : Space) (a : Nat) (bs : List Byte) (sp' : Space) :
    (s.writeRange sp a bs).size sp' = s.size sp' := by simp [State.size]

/-! ## The frame encoder -/

@[simp] theorem frameHeader_length (cmd : Byte) (len : BitVec 16) : (frameHeader cmd len).length = 6 := rfl

@[simp] theorem frameHead_length (cmd : Byte) (p : List Byte) : (frameHead cmd p).length = 6 + p.length := by
  simp [frameHead]

@[simp] theorem buildFrame_length (cmd : Byte) (p : List Byte) : (buildFrame cmd p).length = p.length + 8 := by
  simp [buildFrame]
  omega

/-- `FE.BUILD` either refuses with `E_RANGE` or writes the frame of R121. -/
theorem State.buildFrame_cases {s t : State} {cmd : Byte} {len : BitVec 16} (h : s.buildFrame cmd len = .next t) :
    (s.params.payloadMax < len.toNat ∧ t = { s with result := some { st := .eRange, r := 0 } }) ∨
    (len.toNat ≤ s.params.payloadMax ∧
      t = { s.writeRange .frm 0 (Machine.buildFrame cmd (s.readRange .pay 0 len.toNat)) with
            regs := { s.regs with
              crcAcc := crc8 (frameHead cmd (s.readRange .pay 0 len.toNat))
              feFlen := BitVec.ofNat 17 (len.toNat + 8) }
            result := some { st := .ok, r := BitVec.ofNat 32 (len.toNat + 8) } }) := by
  unfold State.buildFrame at h
  split at h
  · rename_i hlt
    exact .inl ⟨hlt, State.refuse_eq h⟩
  · rename_i hle
    refine .inr ⟨by omega, ?_⟩
    simpa [State.setCrc] using State.finish_eq h

end Sys2Proof.Machine
end

