-- ==== Sys2Proof/Laws/Halftone.lean ====
section
/-! SUPPORT. What a pixel step can do, and the loop of pixel steps. -/

namespace Sys2Proof.Machine

/-! ## Everything a pixel step leaves alone -/

/-- `t` differs from `s` at most in the memories PIX and PCK. -/
structure SameButRaster (s t : State) : Prop where
  regs    : t.regs = s.regs
  result  : t.result = s.result
  port    : t.port = s.port
  params  : t.params = s.params
  powerUp : t.powerUp = s.powerUp
  other   : ∀ sp : Space, sp ≠ .pix → sp ≠ .pck → t.mem.get sp = s.mem.get sp

theorem SameButRaster.refl (s : State) : SameButRaster s s := ⟨rfl, rfl, rfl, rfl, rfl, fun _ _ _ => rfl⟩

theorem SameButRaster.trans {s t u : State} (h : SameButRaster s t) (k : SameButRaster t u) : SameButRaster s u :=
  ⟨k.regs.trans h.regs, k.result.trans h.result, k.port.trans h.port, k.params.trans h.params,
    k.powerUp.trans h.powerUp, fun sp h1 h2 => (k.other sp h1 h2).trans (h.other sp h1 h2)⟩

theorem SameButRaster.writeRange_pix (s : State) (a : Nat) (bs : List Byte) :
    SameButRaster s (s.writeRange .pix a bs) :=
  ⟨by simp, by simp, by simp, by simp, by simp, fun _ h _ => State.writeRange_get_other _ _ h _ _⟩

theorem SameButRaster.writeByte_pck (s : State) (a : Nat) (b : Byte) : SameButRaster s (s.writeByte .pck a b) :=
  ⟨by simp, by simp, by simp, by simp, by simp, fun _ _ h => State.writeByte_get_other _ _ _ _ h⟩

theorem State.pack_same (s : State) (x y nv : Nat) : SameButRaster s (s.pack x y nv) := by
  unfold State.pack State.packGray State.packMono State.orPacked
  split
  · exact SameButRaster.writeByte_pck ..
  · split
    · exact SameButRaster.writeByte_pck ..
    · exact SameButRaster.refl s

theorem State.diffuseTo_same (x y : Nat) (err : Int) (s : State) (t : Int × Nat × Nat) :
    SameButRaster s (s.diffuseTo x y err t) := by
  unfold State.diffuseTo
  simp only
  split
  · exact SameButRaster.writeRange_pix ..
  · exact SameButRaster.refl s

theorem State.diffuse_same (s : State) (x y : Nat) (err : Int) : SameButRaster s (s.diffuse x y err) := by
  simp only [State.diffuse, diffusionTargets, List.foldl]
  exact (((s.diffuseTo_same x y err _).trans (State.diffuseTo_same x y err _ _)).trans
    (State.diffuseTo_same x y err _ _)).trans (State.diffuseTo_same x y err _ _)

section pixelStep
variable (s : State)

/-- The packing and the diffusion of a pixel step. -/
theorem State.packDiffuse_same (x y nv : Nat) (err : Int) : SameButRaster s ((s.pack x y nv).diffuse x y err) :=
  (s.pack_same x y nv).trans (State.diffuse_same ..)

@[simp] theorem State.pixelStep_regs : s.pixelStep.regs = s.regs.advance := by
  simp [State.pixelStep, (s.packDiffuse_same _ _ _ _).regs]
@[simp] theorem State.pixelStep_result : s.pixelStep.result = s.result := (s.packDiffuse_same _ _ _ _).result
@[simp] theorem State.pixelStep_port : s.pixelStep.port = s.port := (s.packDiffuse_same _ _ _ _).port
@[simp] theorem State.pixelStep_params : s.pixelStep.params = s.params := (s.packDiffuse_same _ _ _ _).params
@[simp] theorem State.pixelStep_powerUp : s.pixelStep.powerUp = s.powerUp := (s.packDiffuse_same _ _ _ _).powerUp
theorem State.pixelStep_other {sp : Space} (h1 : sp ≠ .pix) (h2 : sp ≠ .pck) :
    s.pixelStep.mem.get sp = s.mem.get sp := (s.packDiffuse_same _ _ _ _).other sp h1 h2
end pixelStep

/-! ## The sequencer (R148) -/

/-- The registers that an advance leaves alone. -/
theorem Regs.advance_config (g : Regs) :
    g.advance.htW = g.htW ∧ g.advance.htH = g.htH ∧ g.advance.htBpl = g.htBpl ∧ g.advance.htMode = g.htMode ∧
    g.advance.crcAcc = g.crcAcc ∧ g.advance.feFlen = g.feFlen ∧ g.advance.nd = g.nd := by
  unfold Regs.advance
  split <;> exact ⟨rfl, rfl, rfl, rfl, rfl, rfl, rfl⟩

section advance
variable (g : Regs)
@[simp] theorem Regs.advance_htW : g.advance.htW = g.htW := g.advance_config.1
@[simp] theorem Regs.advance_htH : g.advance.htH = g.htH := g.advance_config.2.1
@[simp] theorem Regs.advance_htBpl : g.advance.htBpl = g.htBpl := g.advance_config.2.2.1
@[simp] theorem Regs.advance_htMode : g.advance.htMode = g.htMode := g.advance_config.2.2.2.1
@[simp] theorem Regs.advance_crcAcc : g.advance.crcAcc = g.crcAcc := g.advance_config.2.2.2.2.1
@[simp] theorem Regs.advance_feFlen : g.advance.feFlen = g.feFlen := g.advance_config.2.2.2.2.2.1
@[simp] theorem Regs.advance_nd : g.advance.nd = g.nd := g.advance_config.2.2.2.2.2.2
end advance

/-- What R148 does to a sequencer that points into the raster: along the line, to the next line, or to the end. -/
theorem Regs.advance_cases (g : Regs) (hx : g.htX.toNat < g.htW.toNat) (hy : g.htY.toNat < g.htH.toNat) :
    (g.htX.toNat + 1 < g.htW.toNat ∧ g.advance.htX.toNat = g.htX.toNat + 1 ∧ g.advance.htY = g.htY ∧
      g.advance.htState = g.htState) ∨
    (g.htX.toNat + 1 = g.htW.toNat ∧ g.htY.toNat + 1 < g.htH.toNat ∧ g.advance.htX = 0 ∧
      g.advance.htY.toNat = g.htY.toNat + 1 ∧ g.advance.htState = g.htState) ∨
    (g.htX.toNat + 1 = g.htW.toNat ∧ g.htY.toNat + 1 = g.htH.toNat ∧ g.advance.htX = 0 ∧
      g.advance.htY = g.htH ∧ g.advance.htState = .done) := by
  have hW := g.htW.isLt
  have hH := g.htH.isLt
  unfold Regs.advance
  split
  · rename_i h
    exact .inl ⟨h, by simp only [BitVec.toNat_ofNat]; omega, rfl, rfl⟩
  · rename_i h
    by_cases hlast : g.htY.toNat + 1 = g.htH.toNat
    · refine .inr (.inr ⟨by omega, hlast, rfl, ?_, by simp [hlast]⟩)
      apply BitVec.eq_of_toNat_eq
      simp only [BitVec.toNat_ofNat]
      omega
    · refine .inr (.inl ⟨by omega, by omega, rfl, ?_, by simp [hlast]⟩)
      simp only [BitVec.toNat_ofNat]
      omega

/-- One advance takes one pixel off the pixels left. -/
theorem Regs.pixelsLeft_pos (g : Regs) (hx : g.htX.toNat < g.htW.toNat) (hy : g.htY.toNat < g.htH.toNat) :
    0 < g.pixelsLeft := by
  unfold Regs.pixelsLeft
  have : g.htY.toNat * g.htW.toNat + g.htW.toNat ≤ g.htW.toNat * g.htH.toNat := by
    rw [← Nat.succ_mul, Nat.mul_comm]
    exact Nat.mul_le_mul_left _ hy
  omega

theorem Regs.advance_pixelsLeft (g : Regs) (hx : g.htX.toNat < g.htW.toNat) (hy : g.htY.toNat < g.htH.toNat) :
    g.advance.pixelsLeft = g.pixelsLeft - 1 := by
  have hpos := g.pixelsLeft_pos hx hy
  unfold Regs.pixelsLeft at *
  rw [Regs.advance_htW, Regs.advance_htH]
  rcases g.advance_cases hx hy with ⟨h1, h2, h3, -⟩ | ⟨h1, -, h3, h4, -⟩ | ⟨h1, h2, h3, h4, -⟩
  · rw [h2, h3]; omega
  · rw [h3, h4, Nat.succ_mul, show (0 : BitVec 16).toNat = 0 from rfl]
    omega
  · rw [h3, h4, ← h2, Nat.mul_succ, Nat.succ_mul, Nat.mul_comm g.htW.toNat, show (0 : BitVec 16).toNat = 0 from rfl]
    omega

/-- The legality of a configuration reads only the configuration registers. -/
theorem legalConfig_congr {p : Params} {g g' : Regs} (hw : g'.htW = g.htW) (hh : g'.htH = g.htH)
    (hb : g'.htBpl = g.htBpl) (hm : g'.htMode = g.htMode) : legalConfig p g' ↔ legalConfig p g := by
  simp only [legalConfig, hw, hh, hb, hm]

/-- An advance keeps R27's invariant, or ends the conversion. -/
theorem sequencerInRaster_advance {p : Params} {g : Regs} (h : sequencerInRaster p g) (hr : g.htState = .run) :
    (g.advance.htState = .run ∧ sequencerInRaster p g.advance) ∨
    (g.advance.htState = .done ∧ g.advance.htX = 0 ∧ g.advance.htY = g.htH) := by
  obtain ⟨hl, hx, hy⟩ := h
  have hl' : legalConfig p g.advance := (legalConfig_congr (by simp) (by simp) (by simp) (by simp)).mpr hl
  have hw0 : 1 ≤ g.htW.toNat := hl.2.1.1
  rcases g.advance_cases hx hy with ⟨h1, h2, h3, h4⟩ | ⟨h1, h2, h3, h4, h5⟩ | ⟨-, -, h3, h4, h5⟩
  · exact .inl ⟨h4.trans hr, hl', by rw [Regs.advance_htW]; omega, by rw [Regs.advance_htH, h3]; exact hy⟩
  · exact .inl ⟨h5.trans hr, hl', by rw [Regs.advance_htW, h3]; exact hw0, by rw [Regs.advance_htH]; omega⟩
  · exact .inr ⟨h5, h3, h4⟩

/-! ## The loop of pixel steps (R153) -/

/-- What every pixel step in RUN keeps, the loop keeps. -/
theorem State.pixelSteps_keeps (P : State → Prop) (hstep : ∀ s, s.regs.htState = .run → P s → P s.pixelStep)
    (n : Nat) (s : State) (h : P s) : P (State.pixelSteps n s) := by
  induction n generalizing s with
  | zero => exact h
  | succ n ih =>
    rw [State.pixelSteps]
    split
    · rename_i hr
      exact ih _ (hstep s hr h)
    · exact h

/-- The loop of `HT.RUN` ends with the raster finished. -/
theorem State.runBody_done {s : State} (hr : s.regs.htState = .run) (h : sequencerInRaster s.params s.regs) :
    s.runBody.regs.htState = .done ∧ s.runBody.regs.htX = 0 ∧ s.runBody.regs.htY = s.regs.htH := by
  have key : ∀ n (t : State), t.regs.pixelsLeft = n → t.regs.htState = .run → sequencerInRaster t.params t.regs →
      (State.pixelSteps n t).regs.htState = .done ∧ (State.pixelSteps n t).regs.htX = 0 ∧
      (State.pixelSteps n t).regs.htY = t.regs.htH := by
    intro n
    induction n with
    | zero =>
      intro t hn _ ht
      have := t.regs.pixelsLeft_pos ht.2.1 ht.2.2
      omega
    | succ n ih =>
      intro t hn htr ht
      rw [State.pixelSteps, if_pos htr]
      rcases sequencerInRaster_advance ht htr with ⟨h1, h2⟩ | ⟨h1, h2, h3⟩
      · have hleft : t.pixelStep.regs.pixelsLeft = n := by
          rw [State.pixelStep_regs, Regs.advance_pixelsLeft _ ht.2.1 ht.2.2]
          omega
        have := ih t.pixelStep hleft (by simpa using h1) (by simpa using h2)
        simpa using this
      · have hnot : ¬ t.pixelStep.regs.htState = .run := by simp [h1]
        have : State.pixelSteps n t.pixelStep = t.pixelStep := by
          cases n with
          | zero => rfl
          | succ n => rw [State.pixelSteps, if_neg hnot]
        rw [this]
        exact ⟨by simpa using h1, by simpa using h2, by simpa using h3⟩
  exact key _ s rfl hr h

/-- The loop leaves everything alone that a pixel step leaves alone. -/
theorem State.pixelSteps_same (n : Nat) (s : State) :
    let t := State.pixelSteps n s
    (t.regs.htW = s.regs.htW ∧ t.regs.htH = s.regs.htH ∧ t.regs.htBpl = s.regs.htBpl ∧
      t.regs.htMode = s.regs.htMode ∧ t.regs.crcAcc = s.regs.crcAcc ∧ t.regs.feFlen = s.regs.feFlen ∧
      t.regs.nd = s.regs.nd) ∧
    (t.result = s.result ∧ t.port = s.port ∧ t.params = s.params ∧ t.powerUp = s.powerUp) ∧
    (∀ sp : Space, sp ≠ .pix → sp ≠ .pck → t.mem.get sp = s.mem.get sp) := by
  apply State.pixelSteps_keeps (fun t => (t.regs.htW = s.regs.htW ∧ t.regs.htH = s.regs.htH ∧
      t.regs.htBpl = s.regs.htBpl ∧ t.regs.htMode = s.regs.htMode ∧ t.regs.crcAcc = s.regs.crcAcc ∧
      t.regs.feFlen = s.regs.feFlen ∧ t.regs.nd = s.regs.nd) ∧
      (t.result = s.result ∧ t.port = s.port ∧ t.params = s.params ∧ t.powerUp = s.powerUp) ∧
      (∀ sp : Space, sp ≠ .pix → sp ≠ .pck → t.mem.get sp = s.mem.get sp))
  · intro t _ ⟨h1, h2, h3⟩
    refine ⟨by simpa using h1, by simpa using h2, fun sp ha hb => ?_⟩
    rw [State.pixelStep_other _ ha hb]
    exact h3 sp ha hb
  · exact ⟨⟨rfl, rfl, rfl, rfl, rfl, rfl, rfl⟩, ⟨rfl, rfl, rfl, rfl⟩, fun _ _ _ => rfl⟩

/-! ## The pixel arithmetic -/

theorem avg3_le (r g b : Byte) : avg3 r g b ≤ 255 := by
  have := r.isLt
  have := g.isLt
  have := b.isLt
  unfold avg3
  omega

theorem clampByte_toNat (v : Int) :
    (clampByte v).toNat = (if v < 0 then 0 else if 255 < v then 255 else v.toNat) := by
  unfold clampByte
  rw [BitVec.toNat_ofNat]
  apply Nat.mod_eq_of_lt
  split
  · omega
  · split <;> omega

@[simp] theorem clampByte_of_byte (b : Byte) : clampByte (b.toNat : Int) = b := by
  apply BitVec.eq_of_toNat_eq
  have := b.isLt
  rw [clampByte_toNat]
  split
  · omega
  · split <;> omega

end Sys2Proof.Machine
end

