-- ==== Sys2Proof/Laws/PerInstr.lean ====
section
/-! SUPPORT. Statements for every instruction, one lemma per constructor. TableRow: what the encoder writes carries
the match bits of the instruction's row of spec/opcode_table.json. -/

namespace Sys2Proof.Laws.TableRow

/-- The row's width in bits and its `match` value. -/
def rowOf : Instr → Nat × Nat
  | .nop => (80, 0x00000000000000000000)
  | .sysReset => (80, 0x01000000000000000000)
  | .regRd _ => (80, 0x08000000000000000000)
  | .regWr _ _ => (80, 0x09000000000000000000)
  | .memRd _ _ => (80, 0x10000000000000000000)
  | .memWr _ _ _ => (80, 0x11000000000000000000)
  | .crcClr => (80, 0x20000000000000000000)
  | .crcByte _ => (80, 0x21000000000000000000)
  | .crcBuf _ _ _ => (80, 0x22000000000000000000)
  | .feBuild _ _ => (80, 0x30000000000000000000)
  | .feCheck _ => (80, 0x31000000000000000000)
  | .fdParse _ _ => (80, 0x38000000000000000000)
  | .fdNotify _ => (80, 0x39000000000000000000)
  | .htStart => (80, 0x40000000000000000000)
  | .htStep => (80, 0x41000000000000000000)
  | .htRun => (80, 0x42000000000000000000)
  | .htConvert => (80, 0x43000000000000000000)
  | .frameGetStatus _ => (32, 0x2221A100)
  | .framePrintIntensity _ => (32, 0x2221A200)
  | .frameQueryCount _ => (32, 0x2221A700)
  | .framePrint _ => (32, 0x2221A900)
  | .framePrintComplete _ => (32, 0x2221AA00)
  | .frameBatteryLevel _ => (32, 0x2221AB00)
  | .frameCancelPrint _ => (32, 0x2221AC00)
  | .framePrintDataFlush _ => (32, 0x2221AD00)
  | .frameGetPrintType _ => (32, 0x2221B000)
  | .frameGetVersion _ => (32, 0x2221B100)

/-- The bits of a presented item that the rows' masks select: the selector of an operation word (mask `0xFF << 72`),
the first four bytes of a frame (mask 0xFFFFFFFF, byte 0 most significant). -/
def matchBits : PortItem → Nat × Nat
  | .op w => (80, (opSel w).toNat * 2 ^ 72)
  | .frame bytes => (32, (bytes.take 4).foldl (fun n b => n * 256 + b.toNat) 0)

def Statement (i : Instr) : Prop := matchBits (encode i) = rowOf i

theorem opRow (sel sp : BitVec 8) (a d : Word) : matchBits (.op (opWord sel sp a d)) = (80, sel.toNat * 2 ^ 72) := by
  simp [matchBits, opSel_opWord]

theorem nop : Statement .nop := opRow ..
theorem sysReset : Statement .sysReset := opRow ..
theorem regRd (rn : BitVec 8) : Statement (.regRd rn) := opRow ..
theorem regWr (rn : BitVec 8) (v : Word) : Statement (.regWr rn v) := opRow ..
theorem memRd (sp : BitVec 8) (a : Word) : Statement (.memRd sp a) := opRow ..
theorem memWr (sp : BitVec 8) (a : Word) (b : Byte) : Statement (.memWr sp a b) := opRow ..
theorem crcClr : Statement .crcClr := opRow ..
theorem crcByte (b : Byte) : Statement (.crcByte b) := opRow ..
theorem crcBuf (sp : BitVec 8) (a n : Word) : Statement (.crcBuf sp a n) := opRow ..
theorem feBuild (cmd : Byte) (len : BitVec 16) : Statement (.feBuild cmd len) := opRow ..
theorem feCheck (n : Word) : Statement (.feCheck n) := opRow ..
theorem fdParse (cmd : Byte) (n : Word) : Statement (.fdParse cmd n) := opRow ..
theorem fdNotify (n : Word) : Statement (.fdNotify n) := opRow ..
theorem htStart : Statement .htStart := opRow ..
theorem htStep : Statement .htStep := opRow ..
theorem htRun : Statement .htRun := opRow ..
theorem htConvert : Statement .htConvert := opRow ..
theorem frameGetStatus (len : BitVec 16) : Statement (.frameGetStatus len) := rfl
theorem framePrintIntensity (len : BitVec 16) : Statement (.framePrintIntensity len) := rfl
theorem frameQueryCount (len : BitVec 16) : Statement (.frameQueryCount len) := rfl
theorem framePrint (len : BitVec 16) : Statement (.framePrint len) := rfl
theorem framePrintComplete (len : BitVec 16) : Statement (.framePrintComplete len) := rfl
theorem frameBatteryLevel (len : BitVec 16) : Statement (.frameBatteryLevel len) := rfl
theorem frameCancelPrint (len : BitVec 16) : Statement (.frameCancelPrint len) := rfl
theorem framePrintDataFlush (len : BitVec 16) : Statement (.framePrintDataFlush len) := rfl
theorem frameGetPrintType (len : BitVec 16) : Statement (.frameGetPrintType len) := rfl
theorem frameGetVersion (len : BitVec 16) : Statement (.frameGetVersion len) := rfl

end Sys2Proof.Laws.TableRow
end

