-- ==== Sys2Proof/Laws/Raster.lean ====
section
/-! SUPPORT. What packing and diffusion do to the bytes of PIX and PCK, and that they stay within the two spaces. -/

namespace Sys2Proof.Machine

/-! ## Addresses -/

/-- The byte addresses of a pixel of the raster lie below `4·W·H` (R141). -/
theorem pixelAddr_lt (s : State) {x y : Nat} (hx : x < s.regs.htW.toNat) (hy : y < s.regs.htH.toNat) :
    s.pixelAddr x y + 4 ≤ 4 * s.regs.htW.toNat * s.regs.htH.toNat := by
  unfold State.pixelAddr
  have : (y + 1) * s.regs.htW.toNat ≤ s.regs.htH.toNat * s.regs.htW.toNat := Nat.mul_le_mul_right _ hy
  rw [Nat.succ_mul] at this
  rw [Nat.mul_assoc, Nat.mul_comm s.regs.htW.toNat]
  omega

/-- Two pixels of the raster with the same address are the same pixel. -/
theorem pixel_unique {w x y x' y' : Nat} (hx : x < w) (hx' : x' < w) (h : y * w + x = y' * w + x') : x = x' ∧ y = y' := by
  have hy : y = y' := by
    have h1 : (y * w + x) / w = y := by
      rw [Nat.mul_comm, Nat.mul_add_div (by omega), Nat.div_eq_of_lt hx]; omega
    have h2 : (y' * w + x') / w = y' := by
      rw [Nat.mul_comm, Nat.mul_add_div (by omega), Nat.div_eq_of_lt hx']; omega
    rw [← h1, ← h2, h]
  subst hy
  omega

/-- The packed byte of a pixel lies below `BPL·H`, in both modes (R143, R144). -/
theorem packedAddr_lt {bpl h y c : Nat} (hy : y < h) (hc : c < bpl) : y * bpl + c < bpl * h := by
  have : (y + 1) * bpl ≤ h * bpl := Nat.mul_le_mul_right _ hy
  rw [Nat.succ_mul, Nat.mul_comm h] at this
  omega

/-! ## Writing one pixel -/

theorem State.setPixel_read (s : State) (x y : Nat) (v : Byte) (sp : Space) (a : Nat) :
    (s.setPixel x y v).readByte sp a =
      if sp = .pix ∧ s.pixelAddr x y ≤ a ∧ a < s.pixelAddr x y + 3 then v else s.readByte sp a := by
  unfold State.setPixel
  rw [State.readByte_writeRange]
  by_cases h : sp = .pix ∧ s.pixelAddr x y ≤ a
  · rw [if_pos h]
    by_cases h3 : a < s.pixelAddr x y + 3
    · rw [if_pos ⟨h.1, h.2, h3⟩]
      have h4 : a - s.pixelAddr x y = 0 ∨ a - s.pixelAddr x y = 1 ∨ a - s.pixelAddr x y = 2 := by omega
      rcases h4 with h4 | h4 | h4 <;> rw [h4] <;> rfl
    · rw [if_neg (fun k => h3 k.2.2), List.getElem?_eq_none (by simp; omega)]
      rfl
  · rw [if_neg h, if_neg (fun k => h ⟨k.1, k.2.1⟩)]

/-- Everything one target of the diffusion does: three bytes of the neighbour when it lies in the raster (R147). -/
theorem State.diffuseTo_read (x y : Nat) (err : Int) (s : State) (t : Int × Nat × Nat) (sp : Space) (a : Nat) :
    let nx := ((x : Int) + t.1).toNat
    let ny := y + t.2.1
    (s.diffuseTo x y err t).readByte sp a =
      if (0 ≤ (x : Int) + t.1 ∧ (x : Int) + t.1 < (s.regs.htW.toNat : Int) ∧ ny < s.regs.htH.toNat) ∧
          sp = .pix ∧ s.pixelAddr nx ny ≤ a ∧ a < s.pixelAddr nx ny + 3 then
        clampByte ((s.pixelAvg nx ny : Int) - diffusionTerm err t.2.2)
      else s.readByte sp a := by
  unfold State.diffuseTo
  simp only
  split
  · rename_i h
    rw [State.setPixel_read]
    simp only [h, true_and, and_self]
  · rename_i h
    rw [if_neg (fun k => h k.1)]

/-- Diffusion and packing keep every byte of the raster's alpha channel and beyond `4·W·H`: what they write in PIX
are colour bytes of pixels of the raster. -/
theorem State.diffuseTo_read_outside (x y : Nat) (err : Int) (s : State) (t : Int × Nat × Nat) (sp : Space) (a : Nat)
    (h : sp ≠ .pix ∨ a % 4 = 3 ∨ 4 * s.regs.htW.toNat * s.regs.htH.toNat ≤ a) :
    (s.diffuseTo x y err t).readByte sp a = s.readByte sp a := by
  rw [State.diffuseTo_read, if_neg]
  rintro ⟨⟨h0, h1, h2⟩, hp, h3, h4⟩
  have hlt := pixelAddr_lt s (x := ((x : Int) + t.1).toNat) (y := y + t.2.1) (by omega) h2
  have h5 : s.pixelAddr ((x : Int) + t.1).toNat (y + t.2.1) % 4 = 0 := by simp [State.pixelAddr]
  rcases h with h | h | h
  · exact h hp
  · omega
  · omega

theorem State.diffuse_read_outside (s : State) (x y : Nat) (err : Int) (sp : Space) (a : Nat)
    (h : sp ≠ .pix ∨ a % 4 = 3 ∨ 4 * s.regs.htW.toNat * s.regs.htH.toNat ≤ a) :
    (s.diffuse x y err).readByte sp a = s.readByte sp a := by
  simp only [State.diffuse, diffusionTargets, List.foldl]
  have e1 := State.diffuseTo_same x y err s (1, 0, 7)
  have e2 := State.diffuseTo_same x y err (s.diffuseTo x y err (1, 0, 7)) (-1, 1, 3)
  have e3 := State.diffuseTo_same x y err ((s.diffuseTo x y err (1, 0, 7)).diffuseTo x y err (-1, 1, 3)) (0, 1, 5)
  rw [State.diffuseTo_read_outside, State.diffuseTo_read_outside, State.diffuseTo_read_outside,
    State.diffuseTo_read_outside]
  · exact h
  · rw [e1.regs]; exact h
  · rw [e2.regs, e1.regs]; exact h
  · rw [e3.regs, e2.regs, e1.regs]; exact h

theorem State.pack_read_other (s : State) (x y nv : Nat) {sp : Space} (h : sp ≠ .pck) (a : Nat) :
    (s.pack x y nv).readByte sp a = s.readByte sp a := by
  unfold State.pack State.packGray State.packMono State.orPacked
  split
  · exact State.readByte_writeByte_other _ _ (.inl h)
  · split
    · exact State.readByte_writeByte_other _ _ (.inl h)
    · rfl

/-- A pixel step writes only colour bytes of the raster and packed bytes (R56, R155 e). -/
theorem State.pixelStep_read_outside (s : State) (sp : Space) (a : Nat) (hp : sp ≠ .pck)
    (h : sp ≠ .pix ∨ a % 4 = 3 ∨ 4 * s.regs.htW.toNat * s.regs.htH.toNat ≤ a) :
    s.pixelStep.readByte sp a = s.readByte sp a := by
  show State.readByte ((s.pack _ _ _).diffuse _ _ _) sp a = _
  rw [State.diffuse_read_outside, State.pack_read_other _ _ _ _ hp]
  rw [(State.pack_same ..).regs]
  exact h

/-! ## Packed bytes -/

/-- Diffusion does not touch PCK. -/
theorem State.diffuse_read_pck (s : State) (x y : Nat) (err : Int) (a : Nat) :
    (s.diffuse x y err).readByte .pck a = s.readByte .pck a :=
  State.diffuse_read_outside s x y err .pck a (.inl (by decide))

/-- A pixel step's effect on PCK is that of the packing. -/
theorem State.pixelStep_read_pck (s : State) (a : Nat) :
    s.pixelStep.readByte .pck a =
      (s.pack s.regs.htX.toNat s.regs.htY.toNat
        (s.quantise (brightness (s.pixelAvg s.regs.htX.toNat s.regs.htY.toNat)))).readByte .pck a :=
  State.diffuse_read_pck ..

/-! ## Within the spaces -/

theorem State.MemOk.diffuseTo {s : State} (h : s.MemOk)
    (hp : 4 * s.regs.htW.toNat * s.regs.htH.toNat ≤ s.params.pixSize) (x y : Nat) (err : Int) (t : Int × Nat × Nat) :
    (s.diffuseTo x y err t).MemOk := by
  unfold State.diffuseTo
  simp only
  split
  · rename_i hin
    have hlt := pixelAddr_lt s (x := ((x : Int) + t.1).toNat) (y := y + t.2.1) (by omega) hin.2.2
    apply State.MemOk.writeRange h
    show _ ≤ s.params.pixSize
    simp only [List.length_cons, List.length_nil]
    omega
  · exact h

theorem State.MemOk.diffuse {s : State} (h : s.MemOk)
    (hp : 4 * s.regs.htW.toNat * s.regs.htH.toNat ≤ s.params.pixSize) (x y : Nat) (err : Int) :
    (s.diffuse x y err).MemOk := by
  simp only [State.diffuse, diffusionTargets, List.foldl]
  have e1 := State.diffuseTo_same x y err s (1, 0, 7)
  have e2 := State.diffuseTo_same x y err (s.diffuseTo x y err (1, 0, 7)) (-1, 1, 3)
  have e3 := State.diffuseTo_same x y err ((s.diffuseTo x y err (1, 0, 7)).diffuseTo x y err (-1, 1, 3)) (0, 1, 5)
  have m1 := h.diffuseTo hp x y err (1, 0, 7)
  have m2 := m1.diffuseTo (by rw [e1.regs, e1.params]; exact hp) x y err (-1, 1, 3)
  have m3 := m2.diffuseTo (by rw [e2.regs, e1.regs, e2.params, e1.params]; exact hp) x y err (0, 1, 5)
  exact m3.diffuseTo (by rw [e3.regs, e2.regs, e1.regs, e3.params, e2.params, e1.params]; exact hp) x y err (1, 1, 1)

theorem State.MemOk.pack {s : State} (h : s.MemOk) (hs : sequencerInRaster s.params s.regs) (nv : Nat) :
    (s.pack s.regs.htX.toNat s.regs.htY.toNat nv).MemOk := by
  obtain ⟨⟨hm, hwh, hmono, hgray, hsize⟩, hx, hy⟩ := hs
  unfold State.pack State.packGray State.packMono State.orPacked
  split
  · rename_i hg
    have := hgray hg
    apply h.writeByte
    have := packedAddr_lt (bpl := s.regs.htBpl.toNat) (c := s.regs.htX.toNat / 2) hy (by omega)
    show _ < s.params.packSize
    omega
  · rename_i hg
    have := hmono (hm.resolve_right hg)
    split
    · apply h.writeByte
      have := packedAddr_lt (bpl := s.regs.htBpl.toNat) (c := s.regs.htX.toNat / 8) hy (by omega)
      show _ < s.params.packSize
      omega
    · exact h

/-- A pixel step in the raster keeps all memories canonical and within their spaces. -/
theorem State.MemOk.pixelStep {s : State} (h : s.MemOk) (hs : sequencerInRaster s.params s.regs) :
    s.pixelStep.MemOk := by
  have hp := s.pack_same s.regs.htX.toNat s.regs.htY.toNat
    (s.quantise (brightness (s.pixelAvg s.regs.htX.toNat s.regs.htY.toNat)))
  refine ((h.pack hs _).diffuse ?_ _ _ _).congr rfl rfl
  rw [hp.regs, hp.params]
  exact hs.1.2.2.2.2.1

theorem State.MemOk.startBody {s : State} (h : s.MemOk) (hl : legalConfig s.params s.regs) : s.startBody.MemOk := by
  refine (h.writeRange (sp := .pck) (a := 0)
    (bs := List.replicate (s.regs.htBpl.toNat * s.regs.htH.toNat) 0) ?_).congr rfl rfl
  simp only [List.length_replicate, Nat.zero_add]
  exact hl.2.2.2.2.2

/-- The loop of `HT.RUN` keeps all memories canonical and within their spaces. -/
theorem State.MemOk.runBody {s : State} (h : s.MemOk) (hs : s.regs.htState = .run → sequencerInRaster s.params s.regs) :
    s.runBody.MemOk := by
  have := State.pixelSteps_keeps
    (fun t => t.MemOk ∧ (t.regs.htState = .run → sequencerInRaster t.params t.regs)) ?_ s.regs.pixelsLeft s ⟨h, hs⟩
  · exact this.1
  · intro t hr ⟨h1, h2⟩
    refine ⟨h1.pixelStep (h2 hr), fun hr' => ?_⟩
    rcases sequencerInRaster_advance (h2 hr) hr with ⟨-, k⟩ | ⟨k, -⟩
    · simpa using k
    · rw [State.pixelStep_regs, k] at hr'
      exact absurd hr' (by decide)

/-! ## The start of a conversion -/

@[simp] theorem State.startBody_regs (s : State) :
    s.startBody.regs = { s.regs with htX := 0, htY := 0, htState := .run } := by simp [State.startBody]
@[simp] theorem State.startBody_params (s : State) : s.startBody.params = s.params := by simp [State.startBody]
@[simp] theorem State.startBody_port (s : State) : s.startBody.port = s.port := by simp [State.startBody]
@[simp] theorem State.startBody_result (s : State) : s.startBody.result = s.result := by simp [State.startBody]
@[simp] theorem State.startBody_powerUp (s : State) : s.startBody.powerUp = s.powerUp := by simp [State.startBody]

theorem State.startBody_read (s : State) (sp : Space) (a : Nat) :
    s.startBody.readByte sp a =
      if sp = .pck ∧ a < s.regs.htBpl.toNat * s.regs.htH.toNat then 0 else s.readByte sp a := by
  show State.readByte (s.writeRange .pck 0 _) sp a = _
  rw [State.readByte_writeRange]
  by_cases h : sp = .pck ∧ a < s.regs.htBpl.toNat * s.regs.htH.toNat
  · rw [if_pos h, if_pos ⟨h.1, by omega⟩]
    simp [h.2]
  · rw [if_neg h]
    split
    · rename_i hs
      rw [List.getElem?_eq_none]
      · rfl
      · have : ¬ a < s.regs.htBpl.toNat * s.regs.htH.toNat := fun k => h ⟨hs.1, k⟩
        simp
        omega
    · rfl

/-- A started conversion points into the raster. -/
theorem State.startBody_inRaster {s : State} (h : legalConfig s.params s.regs) :
    sequencerInRaster s.startBody.params s.startBody.regs := by
  rw [State.startBody_params, State.startBody_regs]
  exact ⟨(legalConfig_congr rfl rfl rfl rfl).mpr h, h.2.1.1, h.2.1.2⟩

/-! ## The pixel step does not look at the last result word -/

section withResult
variable (s : State) (res : Option Result)

theorem State.writeRange_with_result (sp : Space) (a : Nat) (bs : List Byte) :
    State.writeRange { s with result := res } sp a bs = { s.writeRange sp a bs with result := res } := by
  induction bs generalizing s a with
  | nil => rfl
  | cons b bs ih => exact ih (s.writeByte sp a b) (a + 1)

theorem State.pack_with_result (x y nv : Nat) :
    State.pack { s with result := res } x y nv = { s.pack x y nv with result := res } := by
  simp only [State.pack, State.packMono, State.packGray, State.orPacked]
  split
  · rfl
  · split <;> rfl

theorem State.diffuseTo_with_result (x y : Nat) (err : Int) (t : Int × Nat × Nat) :
    State.diffuseTo x y err { s with result := res } t = { State.diffuseTo x y err s t with result := res } := by
  simp only [State.diffuseTo]
  split
  · exact State.writeRange_with_result ..
  · rfl

theorem State.pixelStep_with_result :
    State.pixelStep { s with result := res } = { s.pixelStep with result := res } := by
  show ({ (State.diffuse (State.pack { s with result := res } _ _ _) _ _ _) with regs := _ } : State) = _
  simp only [State.pack_with_result, State.diffuse, diffusionTargets, List.foldl, State.diffuseTo_with_result]
  rfl

theorem State.pixelSteps_with_result (n : Nat) :
    State.pixelSteps n { s with result := res } = { State.pixelSteps n s with result := res } := by
  induction n generalizing s with
  | zero => rfl
  | succ n ih =>
    simp only [State.pixelSteps]
    split
    · rw [State.pixelStep_with_result, ih]
    · rfl
end withResult

end Sys2Proof.Machine
end

