-- ==== Sys2Proof/Tests/Slice0.lean ====
section
/-! SUPPORT. Tests. Expected values are those of spec/95_test_vectors.md and of the rules' own examples, never the
model's own answers. A theorem `test_…` checks one decoding or one step; a theorem `witness_…` shows a state and
operands that meet the hypotheses of a statement. -/

namespace Sys2Proof.Tests

open Sys2Proof Sys2Proof.Machine Sys2Proof.Rules

set_option Elab.async false

/-! ## Helpers -/

/-- The next state of an answer. -/
def next? (a : Answer) : Option State :=
  match a with
  | .next s => some s
  | .fault _ => none
  | .refused _ => none

/-- The answer is a next state whose result word is `st r`. -/
abbrev answers (a : Answer) (st : Status) (r : Word) : Prop := (next? a).bind State.result = some { st := st, r := r }

/-- The answer is a next state with these bytes at the start of a space. -/
abbrev leaves (a : Answer) (sp : Space) (bs : List Nat) : Prop :=
  (next? a).map (fun t => (t.readRange sp 0 bs.length).map BitVec.toNat) = some bs

/-- A small implementation: PAY 16, FRM 24, NTF 16, PIX 64 and PCK 4 bytes. -/
def small : Params := { payloadMax := 16, notifMax := 16, pixSize := 64, packSize := 4 }

/-- The small implementation after power-on. -/
def on : State := State.powerOn small 0

def loaded (sp : Space) (bs : List Nat) : State := on.writeRange sp 0 (bs.map (BitVec.ofNat 8))

/-- An operation word presented to the small implementation. -/
def word (s : State) (w : OpWord) : Answer := step (s.present (.op w))

/-- A configured raster with an image and a sequencer state. -/
def raster (mode : Byte) (w h bpl x y : BitVec 16) (st : HtState) (pix : List Nat) : State :=
  let s := (loaded .pix pix).writeRange .pck 0 [0, 0, 0, 0]
  { s with regs := { s.regs with htMode := mode, htW := w, htH := h, htBpl := bpl, htX := x, htY := y, htState := st } }

/-- `n` pixels of one grey value with alpha 0xFF. -/
def grey (n v : Nat) : List Nat := (List.replicate n [v, v, v, 0xFF]).flatten

/-- The raster of V-HT-1, monochrome 8 by 2, at a pixel. -/
def mono (x y : BitVec 16) (st : HtState) : State := raster 0x00 8 2 1 x y st (grey 16 0x80)

/-- The raster of V-HT-3, grayscale 2 by 2, at a pixel. -/
def gray (x y : BitVec 16) (st : HtState) : State :=
  raster 0x02 2 2 1 x y st (grey 1 0xFF ++ grey 1 0x00 ++ grey 1 0x77 ++ grey 1 0x07)

/-! ## WellFormed: an ill-formed term for each check (R74) -/

theorem test_wellFormed_regRd : Instr.wellFormed (.regRd 0x02) = false ∧ Instr.wellFormed (.regRd 0x2B) = true := by
  decide
theorem test_wellFormed_regWr : Instr.wellFormed (.regWr 0x17 0) = false ∧ Instr.wellFormed (.regWr 0x13 0) = true := by
  decide
theorem test_wellFormed_memRd : Instr.wellFormed (.memRd 5 0) = false ∧ Instr.wellFormed (.memRd 4 0) = true := by
  decide
theorem test_wellFormed_memWr : Instr.wellFormed (.memWr 0xFF 0 0) = false ∧ Instr.wellFormed (.memWr 0 0 0) = true := by
  decide
theorem test_wellFormed_crcBuf : Instr.wellFormed (.crcBuf 9 0 0) = false ∧ Instr.wellFormed (.crcBuf 3 0 0) = true := by
  decide

/-! ## Decoding: words written out from R70, R73, R75 and R77 (`sel sp a d`, or bytes 0..5) -/

theorem test_decode_nop : decode (.op 0x00000000000000000000) = .ok .nop := by decide +kernel
theorem test_decode_sysReset : decode (.op 0x01000000000000000000) = .ok .sysReset := by decide +kernel
theorem test_decode_regRd : decode (.op 0x08000000011000000000) = .ok (.regRd 0x10) := by decide +kernel
theorem test_decode_regWr : decode (.op 0x09000000001000010008) = .ok (.regWr 0x10 0x10008) := by decide +kernel
theorem test_decode_memRd : decode (.op 0x10050000000A00000000) = .ok (.memRd 5 0xA) := by decide +kernel
theorem test_decode_memWr : decode (.op 0x1102000000FF000001FE) = .ok (.memWr 2 0xFF 0xFE) := by decide +kernel
theorem test_decode_crcClr : decode (.op 0x20000000000000000000) = .ok .crcClr := by decide +kernel
theorem test_decode_crcByte : decode (.op 0x21000000000000000131) = .ok (.crcByte 0x31) := by decide +kernel
theorem test_decode_crcBuf : decode (.op 0x22020000000700000002) = .ok (.crcBuf 2 7 2) := by decide +kernel
theorem test_decode_feBuild : decode (.op 0x3000000001A100010004) = .ok (.feBuild 0xA1 4) := by decide +kernel
theorem test_decode_feCheck : decode (.op 0x31000000000000010008) = .ok (.feCheck 65544) := by decide +kernel
theorem test_decode_fdParse : decode (.op 0x3800000001AB00000101) = .ok (.fdParse 0xAB 257) := by decide +kernel
theorem test_decode_fdNotify : decode (.op 0x39000000000000000007) = .ok (.fdNotify 7) := by decide +kernel
theorem test_decode_htStart : decode (.op 0x40000000000000000000) = .ok .htStart := by decide +kernel
theorem test_decode_htStep : decode (.op 0x41000000000000000000) = .ok .htStep := by decide +kernel
theorem test_decode_htRun : decode (.op 0x42000000000000000000) = .ok .htRun := by decide +kernel
theorem test_decode_htConvert : decode (.op 0x43FF0000000100000001) = .ok .htConvert := by decide +kernel
theorem test_decode_getStatus : decodeTableWord 32 0x2221A100 = some (.frameGetStatus 0) := by decide +kernel
theorem test_decode_printIntensity : decodeTableWord 32 0x2221A200 = some (.framePrintIntensity 0) := by decide +kernel
theorem test_decode_queryCount : decodeTableWord 32 0x2221A700 = some (.frameQueryCount 0) := by decide +kernel
theorem test_decode_print : decode (.frame [0x22, 0x21, 0xA9, 0x00, 0x2C, 0x01]) = .ok (.framePrint 300) := by
  decide +kernel
theorem test_decode_printComplete : decodeTableWord 32 0x2221AA00 = some (.framePrintComplete 0) := by decide +kernel
theorem test_decode_batteryLevel : decodeTableWord 32 0x2221AB00 = some (.frameBatteryLevel 0) := by decide +kernel
theorem test_decode_cancelPrint : decodeTableWord 32 0x2221AC00 = some (.frameCancelPrint 0) := by decide +kernel
theorem test_decode_printDataFlush : decodeTableWord 32 0x2221AD00 = some (.framePrintDataFlush 0) := by decide +kernel
theorem test_decode_getPrintType : decodeTableWord 32 0x2221B000 = some (.frameGetPrintType 0) := by decide +kernel
theorem test_decode_getVersion : decodeTableWord 32 0x2221B100 = some (.frameGetVersion 0) := by decide +kernel

/-- V-ERR-1, V-ERR-2: selectors 0x02 and 0x44 are reserved; a frame with another identifier or header byte, or of
another length, is no FRAME row. -/
theorem test_decode_rejects :
    decode (.op 0x02000000000000000000) = .error (.reservedSelector 0x02) ∧
    decode (.op 0x44000000000000000000) = .error (.reservedSelector 0x44) ∧
    decode (.frame [0x22, 0x21, 0xA3, 0x00, 0, 0]) = .error (.frameIdentifier 0xA3) ∧
    decode (.frame [0x23, 0x21, 0xA1, 0x00, 0, 0]) = .error .frameHeaderByte ∧
    decode (.frame [0x22, 0x21, 0xA1, 0x00, 0]) = .error .frameHeaderLength := by decide +kernel

/-! ## Steps -/

/-- V-SYS-2. -/
theorem test_nop : answers (word on 0x00FFFFFFFFFFFFFFFFFF) .ok 0 := by decide +kernel

/-- V-SYS-13, V-SYS-14: the registers at reset, the memory kept. -/
theorem test_sysReset :
    (next? (exec .sysReset { loaded .ntf [0xFF] with regs := { on.regs with crcAcc := 0x97, htW := 8 } })).map
      (fun t => (t.regs.crcAcc, t.regs.htW, t.readByte .ntf 0)) = some (0x00, 384, 0xFF) := by decide +kernel

/-- V-SYS-6, V-ERR-5. -/
theorem test_regRd :
    answers (word on 0x08000000011000000000) .ok 0x180 ∧ answers (exec (.regRd 0x2C) on) .eReg 0 := by decide +kernel

/-- V-SYS-7, V-SYS-8, V-SYS-9. -/
theorem test_regWr :
    (next? (exec (.regWr 0x10 0x10008) on)).map (fun t => t.regs.htW) = some 8 ∧
    (next? (exec (.regWr 0x13 0x102) on)).map (fun t => t.regs.htMode) = some 2 := by decide +kernel

/-- V-ERR-7, V-ERR-22, V-ERR-23, V-ERR-24: the order of the refusals in RUN. -/
theorem test_regWr_refusals :
    answers (exec (.regWr 0x00 0x55) (mono 0 0 .run)) .eRo 0 ∧ answers (exec (.regWr 0x11 2) (mono 0 0 .run)) .eState 0 ∧
    answers (exec (.regWr 0x02 2) (mono 0 0 .run)) .eReg 0 := by decide +kernel

/-- V-SYS-12, V-ERR-9, V-ERR-13 (here NTF has 16 bytes). -/
theorem test_memRd :
    answers (exec (.memRd 2 0) (loaded .ntf [0xFF])) .ok 0xFF ∧ answers (exec (.memRd 5 0) on) .eSpace 0 ∧
    answers (exec (.memRd 2 16) on) .eRange 0 := by decide +kernel

/-- V-SYS-11, V-ERR-10. -/
theorem test_memWr :
    leaves (word on 0x110200000000000001FF) .ntf [0xFF] ∧ answers (exec (.memWr 0xFF 0xFFFFFFFF 0) on) .eSpace 0 := by
  decide +kernel

/-- V-CRC-20: clear. -/
theorem test_crcClr :
    (next? (exec .crcClr { on with regs := { on.regs with crcAcc := 0x1B } })).map (fun t => t.regs.crcAcc) = some 0 := by
  decide +kernel

/-- V-CRC-20: 01, then 02, absorbed. -/
theorem test_crcByte :
    answers (exec (.crcByte 0x01) on) .ok 0x07 ∧
    answers (exec (.crcByte 0x02) { on with regs := { on.regs with crcAcc := 0x07 } }) .ok 0x1B := by decide +kernel

/-- V-CRC-23: the nine ASCII digits. -/
theorem test_crcBuf :
    answers (exec (.crcBuf 2 0 9) (loaded .ntf [0x31, 0x32, 0x33, 0x34, 0x35, 0x36, 0x37, 0x38, 0x39])) .ok 0xF4 := by
  decide +kernel

/-- V-CRC-26 to V-CRC-29: the end of the space, and the sum that does not wrap. -/
theorem test_crcBuf_range :
    answers (exec (.crcBuf 2 16 0) on) .ok 0 ∧ answers (exec (.crcBuf 2 16 1) on) .eRange 0 ∧
    answers (exec (.crcBuf 2 0xFFFFFFFF 0xFFFFFFFF) on) .eRange 0 ∧ answers (exec (.crcBuf 9 0 0) on) .eSpace 0 := by
  decide +kernel

/-- V-FE-3. -/
theorem test_feBuild :
    leaves (exec (.feBuild 0xA9 4) (loaded .pay [0x0A, 0x00, 0x30, 0x00])) .frm
      [0x22, 0x21, 0xA9, 0x00, 0x04, 0x00, 0x0A, 0x00, 0x30, 0x00, 0x1C, 0xFF] ∧
    answers (exec (.feBuild 0xA9 4) (loaded .pay [0x0A, 0x00, 0x30, 0x00])) .ok 0xC := by decide +kernel

/-- V-FE-7: the empty payload; `CRC_ACC` = the frame's CRC and `FE_FLEN` = 8. -/
theorem test_feBuild_empty :
    leaves (exec (.feBuild 0xA1 0) on) .frm [0x22, 0x21, 0xA1, 0x00, 0x00, 0x00, 0x86, 0xFF] ∧
    (next? (exec (.feBuild 0xA1 0) on)).map (fun t => (t.regs.crcAcc, t.regs.feFlen)) = some (0x86, 8) := by
  decide +kernel

/-- V-FC-1, V-FC-4, V-FC-7: well-formed; a wrong header byte; a wrong length. -/
theorem test_feCheck :
    answers (exec (.feCheck 9) (loaded .frm [0x22, 0x21, 0xA1, 0x00, 0x01, 0x00, 0x00, 0xF0, 0xFF])) .ok 0x0001A100 ∧
    answers (exec (.feCheck 9) (loaded .frm [0x23, 0x21, 0xA1, 0x00, 0x01, 0x00, 0x00, 0xF0, 0xFF])) .ok 0x0001A112 ∧
    answers (exec (.feCheck 9) (loaded .frm [0x22, 0x21, 0xA1, 0x00, 0x02, 0x00, 0x00, 0xF0, 0xFF])) .ok 0x0002A108 := by
  decide +kernel

/-- V-FC-8, V-FC-12 (here FRM has 24 bytes). -/
theorem test_feCheck_ends :
    answers (exec (.feCheck 7) on) .ok 1 ∧ answers (exec (.feCheck 25) on) .eRange 0 := by decide +kernel

/-- The notification of group B. -/
def groupB : State :=
  loaded .ntf [0, 0, 0xB1, 0, 0, 0, 0x31, 0x2E, 0x32, 0x2E, 0x33, 0x2E, 0x34, 0x35, 0x01]

/-- V-FD-14: the operand selects the case, and byte 11 is skipped. -/
theorem test_fdParse :
    (next? (exec (.fdParse 0xA1 15) groupB)).map (fun t => t.regs.nd) =
      some { NdRegs.zero with
        kind := .status, cmd := 0xA1, len := 15, flags := 2, batt := 0x2E, temp := 0x33, stat := 0x34, sdet := 0x35 } := by
  decide +kernel

/-- V-FD-4 and V-FD-2: completion without success, and a notification one byte short. -/
theorem test_fdParse_cases :
    (next? (exec (.fdParse 0xAA 7) groupB)).map (fun t => t.regs.nd) =
      some { NdRegs.zero with kind := .complete, cmd := 0xAA, len := 7, flags := 2 } ∧
    (next? (exec (.fdParse 0xAB 6) groupB)).map (fun t => t.regs.nd) =
      some { NdRegs.zero with kind := .raw, cmd := 0xAB, len := 6, flags := 3 } := by decide +kernel

/-- V-FD-12: the version's two words, lowest-indexed byte lowest. -/
theorem test_fdNotify :
    (next? (exec (.fdNotify 15) groupB)).map (fun t => t.regs.nd) =
      some { NdRegs.zero with
        kind := .version, cmd := 0xB1, len := 15, flags := 2, verlo := 0x2E322E31, verhi := 0x35342E33, ptype := 1 } := by
  decide +kernel

/-- V-FD-8: no byte 2. -/
theorem test_fdNotify_short :
    (next? (exec (.fdNotify 2) groupB)).map (fun t => t.regs.nd) =
      some { NdRegs.zero with kind := .raw, len := 2, flags := 1 } := by decide +kernel

/-- V-ERR-21: the output zeroed and the sequencer started. -/
theorem test_htStart :
    (next? (exec .htStart (loaded .pck [0xFF, 0xFF, 0xFF] |> fun s =>
        { s with regs := { s.regs with htW := 8, htH := 2, htBpl := 1 } }))).map
      (fun t => (t.regs.htX, t.regs.htY, t.regs.htState, t.readRange .pck 0 3)) = some (0, 0, .run, [0, 0, 0xFF]) := by
  decide +kernel

/-- V-CFG-5, V-CFG-9, V-CFG-10, V-CFG-12, V-CFG-14. -/
theorem test_htStart_illegal :
    answers (exec .htStart (raster 1 8 1 1 0 0 .idle [])) .eCfg 0 ∧
    answers (exec .htStart (raster 0 8 0 1 0 0 .idle [])) .eCfg 0 ∧
    answers (exec .htStart (raster 0 12 1 1 0 0 .idle [])) .eCfg 0 ∧
    answers (exec .htStart (raster 2 3 1 1 0 0 .idle [])) .eCfg 0 ∧
    answers (exec .htStart (raster 0 8 1 2 0 0 .idle [])) .eCfg 0 := by decide +kernel

/-- R152's example: pixel 0 set, pixel 1 raised to 0xB8. -/
theorem test_htStep :
    let a := exec .htStep (raster 0 8 1 1 0 0 .run (grey 1 0x7F ++ grey 1 0x80 ++ grey 6 0xFF))
    answers a .ok 1 ∧ leaves a .pck [0x01] ∧
    leaves a .pix (grey 1 0x7F ++ grey 1 0xB8 ++ grey 6 0xFF) := by decide +kernel

/-- V-HT-3, pixel (0, 1): level 9 in the high nibble, error -8, pixel (1, 1) from 07 to 0B. -/
theorem test_htStep_gray :
    leaves (exec .htStep (gray 0 1 .run)) .pix (grey 1 0xFF ++ grey 1 0x00 ++ grey 1 0x77 ++ grey 1 0x0B) ∧
    leaves (exec .htStep (gray 0 1 .run)) .pck [0x00, 0x90] := by decide +kernel

/-- V-HT-2: mixed colours, alpha kept. -/
theorem test_htRun :
    let a := exec .htRun (raster 0 8 1 1 0 0 .run
      [0xFF, 0xFF, 0xFF, 0xFF, 0x00, 0x00, 0x00, 0x00, 0x0A, 0x14, 0x1E, 0x07, 0xC8, 0x64, 0x51, 0xFF,
       0x7F, 0x7F, 0x7F, 0x01, 0x80, 0x80, 0x7F, 0x02, 0x82, 0x80, 0x7E, 0x03, 0xFF, 0x00, 0x00, 0x04])
    answers a .ok 2 ∧ leaves a .pck [0xD6] ∧
    leaves a .pix
      [0xFF, 0xFF, 0xFF, 0xFF, 0x00, 0x00, 0x00, 0x00, 0x14, 0x14, 0x14, 0x07, 0x88, 0x88, 0x88, 0xFF,
       0x4B, 0x4B, 0x4B, 0x01, 0xA0, 0xA0, 0xA0, 0x02, 0x57, 0x57, 0x57, 0x03, 0x7C, 0x7C, 0x7C, 0x04] := by
  decide +kernel

/-- V-ERR-14, V-ERR-29. -/
theorem test_ht_outside_run :
    answers (exec .htStep on) .eState 0 ∧ answers (exec .htRun (mono 0 2 .done)) .eState 0 := by decide +kernel

/-- V-HT-1: monochrome 8 by 2, uniform mid-grey. -/
theorem test_htConvert :
    let a := exec .htConvert (mono 0 0 .idle)
    answers a .ok 2 ∧ leaves a .pck [0xAA, 0x55] ∧
    (next? a).map (fun t => (t.regs.htX, t.regs.htY, t.regs.htState)) = some (0, 2, .done) := by decide +kernel

/-- V-HT-3: grayscale 2 by 2. -/
theorem test_htConvert_gray : leaves (exec .htConvert (gray 0 0 .idle)) .pck [0x0F, 0x9F] := by decide +kernel

/-- V-FE-1 asked for as the FRAME row GetStatus with one payload byte. -/
theorem test_frameGetStatus :
    leaves (step ((loaded .pay [0x00]).present (.frame [0x22, 0x21, 0xA1, 0x00, 0x01, 0x00]))) .frm
      [0x22, 0x21, 0xA1, 0x00, 0x01, 0x00, 0x00, 0xF0, 0xFF] := by decide +kernel

/-- V-FE-2, V-FE-4, V-FE-5, V-FE-6, V-FE-8: other FRAME rows. -/
theorem test_frame_rows :
    leaves (exec (.framePrintIntensity 1) (loaded .pay [0x5D])) .frm [0x22, 0x21, 0xA2, 0x00, 0x01, 0x00, 0x5D, 0xC2, 0xFF] ∧
    leaves (exec (.framePrint 4) (loaded .pay [0x2C, 0x01, 0x30, 0x02])) .frm
      [0x22, 0x21, 0xA9, 0x00, 0x04, 0x00, 0x2C, 0x01, 0x30, 0x02, 0xC3, 0xFF] ∧
    leaves (exec (.framePrintDataFlush 1) (loaded .pay [0x00])) .frm [0x22, 0x21, 0xAD, 0x00, 0x01, 0x00, 0x00, 0x66, 0xFF] ∧
    leaves (exec (.framePrintComplete 1) (loaded .pay [0x00])) .frm [0x22, 0x21, 0xAA, 0x00, 0x01, 0x00, 0x00, 0x4F, 0xFF] ∧
    leaves (exec (.frameGetVersion 0) on) .frm [0x22, 0x21, 0xB1, 0x00, 0x00, 0x00, 0xE1, 0xFF] := by decide +kernel

/-- The identifiers of R77 in byte 2 of the frames that have no vector. -/
theorem test_frame_identifiers :
    (next? (exec (.frameQueryCount 0) on)).map (fun t => t.readByte .frm 2) = some 0xA7 ∧
    (next? (exec (.frameBatteryLevel 0) on)).map (fun t => t.readByte .frm 2) = some 0xAB ∧
    (next? (exec (.frameCancelPrint 0) on)).map (fun t => t.readByte .frm 2) = some 0xAC ∧
    (next? (exec (.frameGetPrintType 0) on)).map (fun t => t.readByte .frm 2) = some 0xB0 := by decide +kernel

/-- V-HT-0: floor toward minus infinity. -/
theorem test_diffusionTerm :
    [7, 3, 5, 1].map (diffusionTerm (-127)) = [-56, -24, -40, -8] ∧
    [7, 3, 5, 1].map (diffusionTerm 127) = [55, 23, 39, 7] := by decide +kernel

/-- R143 and D22, R144 and D24: the threshold, a tie, and the clamped level. -/
theorem test_levels :
    monoLevel 127 = 0 ∧ monoLevel 128 = 255 ∧ grayLevel 7 = 0 ∧ grayLevel 8 = 16 ∧ grayLevel 136 = 144 ∧
    grayLevel 248 = 255 ∧ diffusionError 248 (grayLevel 248) = -7 ∧ diffusionError 136 (grayLevel 136) = -8 := by
  decide +kernel

/-! ## Witnesses: the hypotheses of the statements can be met -/

/-- `DecodeAndEncodeAgree`, `StepRunsTheDecodedInstruction`: see also the decode tests. -/
theorem witness_decode :
    { on with port := [.op 0x43000000000000000000] }.port = .op 0x43000000000000000000 :: [] ∧
    decode (.op 0x43000000000000000000) = .ok .htConvert ∧
    decode (.frame [0x22, 0x21, 0xB1, 0x00, 0xFF, 0xFF]) = .ok (.frameGetVersion 65535) := by decide +kernel

/-- `IdleStepChangesNothing`. -/
theorem witness_idle : on.port = [] := by decide

/-- `ReservedEncodingsAreRefused`: each clause at the ends of its range. -/
theorem witness_reserved :
    (0x02 : BitVec 8) ∉ selectors ∧ (0x44 : BitVec 8) ∉ selectors ∧ (0xFF : BitVec 8) ∉ selectors ∧
    5 ≤ (5 : BitVec 8).toNat ∧ 5 ≤ (255 : BitVec 8).toNat ∧
    (0x02 : BitVec 8) ∉ readOnlyNumbers ++ readWriteNumbers ∧ (0x17 : BitVec 8) ∉ readOnlyNumbers ++ readWriteNumbers ∧
    (0x2C : BitVec 8) ∉ readOnlyNumbers ++ readWriteNumbers ∧
    on.regs.htState ≠ .run ∧ (mono 0 2 .done).regs.htState ≠ .run ∧
    (0x01 : Word).setWidth 8 ≠ (0x00 : Byte) ∧ (0x01 : Word).setWidth 8 ≠ (0x02 : Byte) ∧
    (0xFF : Word).setWidth 8 ≠ (0x00 : Byte) ∧ (0xFF : Word).setWidth 8 ≠ (0x02 : Byte) := by decide +kernel

/-- `RegRdReturnsTheRegister`, `RegWrWritesTheConfiguration`. -/
theorem witness_registers :
    (0x14 : BitVec 8) ∈ readOnlyNumbers ∧ (0x13 : BitVec 8) ∈ readWriteNumbers ∧
    (mono 0 0 .run).regs.htState = .run ∧ on.regs.htState ≠ .run := by decide +kernel

/-- `MemRdReturnsTheByte`, `MemWrWritesOneByte`, `UnwrittenByteReadsWithoutError`, `CrcBufComputesCrc8`: both sides of
the end of every space. -/
theorem witness_spaces :
    spaces small = [(0, .pay, 16), (1, .frm, 24), (2, .ntf, 16), (3, .pix, 64), (4, .pck, 4)] ∧
    (∀ x ∈ spaces small, (BitVec.ofNat 32 (x.2.2 - 1)).toNat < x.2.2 ∧ x.2.2 ≤ (BitVec.ofNat 32 x.2.2).toNat) ∧
    (∀ x ∈ spaces small, (BitVec.ofNat 32 x.2.2).toNat + (0 : Word).toNat ≤ x.2.2 ∧
      x.2.2 < (BitVec.ofNat 32 x.2.2).toNat + (1 : Word).toNat) ∧
    4 < (5 : BitVec 8).toNat := by decide +kernel

/-- `ReadsReturnTheLatestWrite`. -/
theorem witness_latest_write :
    answers (exec (.memWr 4 3 0xAB) on) .ok 0 ∧ (next? (exec (.memRd 4 3) (raster 0 8 1 1 0 0 .idle []))).isSome = true := by
  decide +kernel

/-- `Crc8Consequences`. -/
theorem witness_crc : ([0x12, 0x34, 0x56] : List Byte).length = ([0xAB, 0xCD, 0xEF] : List Byte).length := by decide

/-- `FeBuildWritesTheFrame`, `BuiltFramePassesTheCheck`, `CrcOverABuiltFrameIsZero`, `FrameRowsBuildTheirFrames`: the
ends of the payload length's range. -/
theorem witness_frame_lengths :
    (0 : BitVec 16).toNat ≤ small.payloadMax ∧ (16 : BitVec 16).toNat ≤ small.payloadMax ∧
    small.payloadMax < (17 : BitVec 16).toNat ∧ (65535 : BitVec 16).toNat ≤ Params.suggested.payloadMax ∧
    (next? (exec (.feBuild 0xA1 1) (loaded .pay [0]))).isSome = true ∧ frameRows.length = 10 := by decide +kernel

/-- `FeCheckReportsEveryFlag`: both sides of the two limits, a length that fits and one that does not. -/
theorem witness_check_lengths :
    small.payloadMax + 8 < (25 : Word).toNat ∧ (24 : Word).toNat ≤ small.payloadMax + 8 ∧ (7 : Word).toNat < 8 ∧
    8 ≤ (8 : Word).toNat ∧
    (next? (exec (.feBuild 0xA1 0) on)).map (fun t => decide ((8 : Word).toNat = t.frmLength + 8)) = some true ∧
    (next? (exec (.feBuild 0xA1 0) on)).map (fun t => decide ((9 : Word).toNat = t.frmLength + 8)) = some false := by
  decide +kernel

/-- `FdParseDecodesByIdentifier`, `FdNotifyTakesByteTwo`: both sides of every least length and of `NOTIF_MAX`. -/
theorem witness_notification_lengths :
    small.notifMax < (17 : Word).toNat ∧ (16 : Word).toNat ≤ small.notifMax ∧
    14 ≤ (14 : Word).toNat ∧ (13 : Word).toNat < 14 ∧ 7 ≤ (7 : Word).toNat ∧ (6 : Word).toNat < 7 ∧
    15 ≤ (15 : Word).toNat ∧ (14 : Word).toNat < 15 ∧ 3 ≤ (3 : Word).toNat ∧ (2 : Word).toNat < 3 ∧
    (0xA2 : Byte) ∉ [0xA1, 0xAB, 0xB1, 0xAA] := by decide +kernel

/-- `UnwrittenByteReadsWithoutError`: bytes not written beside written ones, and right after power-on. -/
theorem witness_unwritten :
    Memory.byteAt ((loaded .ntf [1, 2]).mem.get .ntf) 2 = none ∧ Memory.byteAt ((loaded .ntf [1, 2]).mem.get .ntf) 1 = some 2 ∧
    Memory.byteAt ((loaded .ntf [1, 2]).mem.get .ntf) 15 = none ∧ Memory.byteAt (on.mem.get .pck) 3 = none ∧
    (15 : Word).toNat < small.notifMax := by decide +kernel

/-- `DecodeReadsOnlyItsFields`: what each case reads at its least length, and nothing one byte below it. -/
theorem witness_decode_reads :
    [decodeReads 0xA1 14, decodeReads 0xAB 7, decodeReads 0xB1 15, decodeReads 0xAA 7] =
      [[9, 10, 12, 13], [6], [6, 7, 8, 9, 10, 11, 12, 13, 14], [6]] ∧
    [decodeReads 0xA1 13, decodeReads 0xAB 6, decodeReads 0xB1 14, decodeReads 0xAA 6, decodeReads 0xA2 16] =
      [[], [], [], [], []] := by decide

/-- `DecodeReadsOnlyItsFields` for `FD.NOTIFY`: two completions that agree on bytes 2 and 6 only, and below length 3 two
notifications that agree nowhere. -/
theorem witness_notify_reads :
    let s := loaded .ntf [1, 2, 0xAA, 3, 4, 5, 0]
    let s' := loaded .ntf [9, 9, 0xAA, 9, 9, 9, 0]
    s'.regs = s.regs ∧ s'.params = s.params ∧
    (∀ i ∈ 2 :: decodeReads (s.readByte .ntf 2) (7 : Word).toNat, s'.readByte .ntf i = s.readByte .ntf i) ∧
    s'.readByte .ntf 3 ≠ s.readByte .ntf 3 ∧ ¬ 3 ≤ (2 : Word).toNat := by decide +kernel

/-- `DecodeReadsOnlyItsFields`: two notifications that differ in the skipped byte 11 only. -/
theorem witness_unread_byte :
    let s := loaded .ntf [1, 2, 3, 4, 5, 6, 7, 8, 9, 10, 11, 12, 13, 14]
    let s' := loaded .ntf [1, 2, 3, 4, 5, 6, 7, 8, 9, 10, 11, 99, 13, 14]
    s'.regs = s.regs ∧ s'.params = s.params ∧
    (∀ i ∈ decodeReads 0xA1 (14 : Word).toNat, s'.readByte .ntf i = s.readByte .ntf i) ∧
    s'.readByte .ntf 11 ≠ s.readByte .ntf 11 ∧
    (next? (exec (.fdParse 0xA1 14) s)).isSome = true ∧ (next? (exec (.fdParse 0xA1 14) s')).isSome = true := by
  decide +kernel

/-- `HtStartBeginsAConversion`, `HtConvertIsStartThenRun`: a legal configuration of each mode (the monochrome one
fills PIX exactly), and illegal ones. -/
theorem witness_legal :
    Legal (mono 0 0 .idle) ∧ Legal (gray 0 0 .idle) ∧ ¬ Legal on ∧ ¬ Legal (raster 0 8 3 1 0 0 .idle []) ∧
    ¬ Legal (raster 1 8 2 1 0 0 .idle []) := by decide +kernel

/-- The statements about a step in RUN: the first pixel, the last of a line and the last of the raster, in both
modes. -/
theorem witness_running :
    Running (mono 0 0 .run) ∧ Running (mono 7 0 .run) ∧ Running (mono 7 1 .run) ∧ Running (gray 0 0 .run) ∧
    Running (gray 1 0 .run) ∧ Running (gray 1 1 .run) :=
  ⟨⟨by decide +kernel, by decide +kernel, by decide +kernel, by decide +kernel⟩,
   ⟨by decide +kernel, by decide +kernel, by decide +kernel, by decide +kernel⟩,
   ⟨by decide +kernel, by decide +kernel, by decide +kernel, by decide +kernel⟩,
   ⟨by decide +kernel, by decide +kernel, by decide +kernel, by decide +kernel⟩,
   ⟨by decide +kernel, by decide +kernel, by decide +kernel, by decide +kernel⟩,
   ⟨by decide +kernel, by decide +kernel, by decide +kernel, by decide +kernel⟩⟩

/-- The modes of `HtStepPacksMonochrome` and `HtStepPacksGrayscale`, the two sides of the threshold, and the weights
of `HtStepDiffusesTheError`. -/
theorem witness_packing :
    (mono 7 1 .run).regs.htMode = 0x00 ∧ (gray 1 1 .run).regs.htMode = 0x02 ∧
    br (raster 0 8 1 1 0 0 .run (grey 8 0x7F)) = 128 ∧ br (mono 0 0 .run) = 127 ∧
    weight 1 0 2 0 = 7 ∧ weight 1 0 0 1 = 3 ∧ weight 1 0 1 1 = 5 ∧ weight 1 0 2 1 = 1 ∧ weight 1 0 1 0 = 0 := by
  decide +kernel

/-- `HtStepAdvancesInRasterOrder`, `HtRunFinishesTheConversion`: states outside RUN. -/
theorem witness_not_running : on.regs.htState ≠ .run ∧ (mono 0 2 .done).regs.htState ≠ .run := by decide +kernel

/-- `WhiteImageConvertsToZeros`, in both modes. -/
theorem witness_white :
    (Legal (raster 0 8 1 1 0 0 .idle (grey 8 0xFF)) ∧ Legal (raster 2 2 2 1 0 0 .idle (grey 4 0xFF))) ∧
    (∀ x < 8, ∀ y < 1, ∀ c < 3,
      (raster 0 8 1 1 0 0 .idle (grey 8 0xFF)).readByte .pix
        (channel (raster 0 8 1 1 0 0 .idle (grey 8 0xFF)) x y c) = 0xFF) ∧
    (∀ x < 2, ∀ y < 2, ∀ c < 3,
      (raster 2 2 2 1 0 0 .idle (grey 4 0xFF)).readByte .pix
        (channel (raster 2 2 2 1 0 0 .idle (grey 4 0xFF)) x y c) = 0xFF) := by decide +kernel

/-- `BlackImageConvertsToOnes`, in both modes. -/
theorem witness_black :
    (Legal (raster 0 8 1 1 0 0 .idle (grey 8 0)) ∧ Legal (raster 2 2 2 1 0 0 .idle (grey 4 0))) ∧
    (∀ x < 8, ∀ y < 1, ∀ c < 3,
      (raster 0 8 1 1 0 0 .idle (grey 8 0)).readByte .pix (channel (raster 0 8 1 1 0 0 .idle (grey 8 0)) x y c) = 0x00) ∧
    (∀ x < 2, ∀ y < 2, ∀ c < 3,
      (raster 2 2 2 1 0 0 .idle (grey 4 0)).readByte .pix (channel (raster 2 2 2 1 0 0 .idle (grey 4 0)) x y c) = 0x00) := by
  decide +kernel

/-- `StepKeepsTheInvariant`, `EveryOperationWordIsAnswered`, `StatusOfEveryInstruction`: a conversion in progress, with
written memory, that meets the invariant. -/
theorem witness_invariant : (mono 7 0 .run).Inv where
  paramsLegal := by decide +kernel
  memOk := fun sp => by
    cases sp <;> exact ⟨by decide +kernel, by decide +kernel⟩
  runInRaster := fun _ => by decide +kernel
  columnZero := fun h => absurd (by decide +kernel) h
  frameLength := .inl (by decide +kernel)
  undecoded := fun _ => by decide +kernel

theorem witness_invariant_step : (next? (step ((mono 7 0 .run).present (.op 0x41000000000000000000)))).isSome = true := by
  decide +kernel

/-- `PowerOnMeetsTheInvariant`: legal sizes. -/
theorem witness_sizes : small.legal ∧ Params.suggested.legal := by decide +kernel

/-- `RefusedOperationChangesNothing`. -/
theorem witness_refused : answers (word on 0x41000000000000000000) .eState 0 ∧ Status.eState ≠ .ok := by decide +kernel

/-- `NoDataMakesAnOperationFail`: the same registers and sizes, other bytes. -/
theorem witness_data :
    (loaded .ntf [1, 2, 0xA1]).regs = (loaded .ntf [9, 9, 9]).regs ∧
    (loaded .ntf [1, 2, 0xA1]).params = (loaded .ntf [9, 9, 9]).params ∧
    (next? (exec (.fdNotify 3) (loaded .ntf [1, 2, 0xA1]))).isSome = true ∧
    (next? (exec (.fdNotify 3) (loaded .ntf [9, 9, 9]))).isSome = true := by decide +kernel

/-- `OnlyResetAbandonsAConversion`: the four ways out of RUN. -/
theorem witness_out_of_run :
    (mono 7 1 .run).regs.htState = .run ∧
    (next? (exec .sysReset (mono 7 1 .run))).map (fun t => t.regs.htState) = some .idle ∧
    (next? (exec .htStep (mono 7 1 .run))).map (fun t => t.regs.htState) = some .done ∧
    (next? (exec .htRun (mono 7 1 .run))).map (fun t => t.regs.htState) = some .done ∧
    (next? (exec .htConvert (mono 7 1 .run))).map (fun t => t.regs.htState) = some .done := by decide +kernel

/-- `RegistersChangeOnlyByTheirWriters`: each group of registers changes somewhere. -/
theorem witness_writers :
    (next? (exec (.crcByte 0x31) on)).map (fun t => decide (t.regs.crcAcc ≠ on.regs.crcAcc)) = some true ∧
    (next? (exec (.feBuild 0xA1 0) on)).map (fun t => decide (t.regs.feFlen ≠ on.regs.feFlen)) = some true ∧
    (next? (exec (.regWr 0x10 8) on)).map (fun t => decide (t.regs.htW ≠ on.regs.htW)) = some true ∧
    (next? (exec .htStep (mono 0 0 .run))).map (fun t => decide (t.regs.htX ≠ (mono 0 0 .run).regs.htX)) = some true ∧
    (next? (exec (.fdParse 0xA2 0) on)).map (fun t => decide (t.regs.nd ≠ on.regs.nd)) = some true := by decide +kernel

/-- `BytesChangeOnlyInTheirRanges`, `NoInstructionChangesTheImplementation`: an instruction that writes no memory. -/
theorem witness_outside_ranges :
    (next? (exec .crcClr on)).isSome = true ∧ ¬ MayWrite on .crcClr .pay 0 := by
  refine ⟨by decide +kernel, ?_⟩
  simp [MayWrite, BuildsFrame, frameRows]

/-- `BytesChangeOnlyInTheirRanges`: the first byte beyond a frame of nine bytes, and the last of the frame. -/
theorem witness_beyond_frame :
    (next? (exec (.feBuild 0xA1 1) (loaded .pay [0]))).isSome = true ∧
    MayWrite (loaded .pay [0]) (.feBuild 0xA1 1) .frm 8 ∧ ¬ MayWrite (loaded .pay [0]) (.feBuild 0xA1 1) .frm 9 := by
  refine ⟨by decide +kernel, .inr (.inl ⟨1, .inl ⟨0xA1, rfl⟩, rfl, by decide⟩), ?_⟩
  simp [MayWrite, BuildsFrame, frameRows]

/-- `BytesChangeOnlyInTheirRanges`: the step on pixel (7, 0) of the raster 8 by 2 may write packed byte 0 and the colour
bytes 56..58 and 60..62 of the line below, not the packed byte beside it, nor the alpha byte 59, nor the pixel itself. -/
theorem witness_beyond_step :
    (next? (exec .htStep (mono 7 0 .run))).isSome = true ∧
    MayWrite (mono 7 0 .run) .htStep .pck 0 ∧ ¬ MayWrite (mono 7 0 .run) .htStep .pck 1 ∧
    MayWrite (mono 7 0 .run) .htStep .pix 58 ∧ ¬ MayWrite (mono 7 0 .run) .htStep .pix 59 ∧
    ¬ MayWrite (mono 7 0 .run) .htStep .pix 28 := by
  have hw : W (mono 7 0 .run) = 8 := by decide +kernel
  have hh : H (mono 7 0 .run) = 2 := by decide +kernel
  have hb : BPL (mono 7 0 .run) = 1 := by decide +kernel
  have hx : X (mono 7 0 .run) = 7 := by decide +kernel
  have hy : Y (mono 7 0 .run) = 0 := by decide +kernel
  have hm : (mono 7 0 .run).regs.htMode = 0x00 := by decide +kernel
  refine ⟨by decide +kernel, ?_⟩
  generalize mono 7 0 .run = s at *
  have hp : 58 = channel s 6 1 2 := by simp [channel, hw]
  refine ⟨?_, ?_, ?_, ?_, ?_⟩
  · exact .inr (.inr (.inr (.inl ⟨rfl, .inl ⟨rfl, by simp [hb, hx, hy, hm]⟩⟩)))
  · simp [MayWrite, BuildsFrame, frameRows, StepMayWrite, hb, hx, hy, hm]
  · exact .inr (.inr (.inr (.inl ⟨rfl, .inr ⟨rfl, 6, 1, 2, by omega, by omega, by omega, by rw [hx, hy]; decide, hp⟩⟩)))
  · simp only [MayWrite, BuildsFrame, frameRows, StepMayWrite, channel, hw, hh, hx, hy]
    simp
    intros
    omega
  · simp only [MayWrite, BuildsFrame, frameRows, StepMayWrite, channel, hw, hh, hx, hy]
    simp
    intro nx hnx ny hny c hc hwt h
    obtain ⟨rfl, rfl⟩ : nx = 7 ∧ ny = 0 := by omega
    exact hwt (by decide)

/-- `FaultOnlyOutsideTheInvariant`: a state that no run reaches. -/
theorem witness_fault : (exec .htStep (mono 8 0 .run)) = .fault .sequencerOutsideRaster := by rfl

/-- `RefusedOperationChangesNothing` and the model's frame form (log entry 2). -/
theorem witness_not_a_row : step (on.present (.frame [0x22])) = .refused .notAFrameRow := by rfl

end Sys2Proof.Tests
end

section
/-! SUPPORT. What an instruction that answers a next state can have done to the state, said once for all
instructions. -/

namespace Sys2Proof.Machine

open Sys2Proof.Rules

/-! ## Groups of instructions -/

/-- The instructions whose only effect on the registers is a new `CRC_ACC` (R23, R114 to R116, R123). -/
def SetsCrc (i : Instr) : Prop :=
  i = .crcClr ∨ (∃ b, i = .crcByte b) ∨ (∃ sp a n, i = .crcBuf sp a n) ∨ ∃ n, i = .feCheck n

/-- The instructions that decode a notification (R126, R127). -/
def DecodesNtf (i : Instr) : Prop := (∃ cmd n, i = .fdParse cmd n) ∨ ∃ n, i = .fdNotify n

/-- The ten identifiers in the order of R77. -/
def commandIds : List CommandId :=
  [.getStatus, .printIntensity, .queryCount, .print, .printComplete, .batteryLevel, .cancelPrint,
   .printDataFlush, .getPrintType, .getVersion]

theorem mem_commandIds (c : CommandId) : c ∈ commandIds := by cases c <;> decide

theorem frameRows_eq_map : frameRows = commandIds.map fun c => (c.row, c.code) := rfl

theorem buildsFrame_row (c : CommandId) (len : BitVec 16) : BuildsFrame (c.row len) len := by
  refine .inr ⟨(c.row, c.code), ?_, rfl⟩
  rw [frameRows_eq_map]
  exact List.mem_map_of_mem (mem_commandIds c)

/-- A FRAME row builds the frame of its command identifier (log entry 2). -/
theorem exec_row (c : CommandId) (len : BitVec 16) (s : State) : exec (c.row len) s = s.buildFrame c.code len := by
  cases c <;> rfl

/-! ## The effect of an instruction -/

/-- The state with the frame of `cmd` and of `len` bytes of PAY built in FRM, and its length and CRC in their
registers (R122). -/
def State.withFrame (s : State) (cmd : Byte) (len : BitVec 16) : State :=
  { s.writeRange .frm 0 (Machine.buildFrame cmd (s.readRange .pay 0 len.toNat)) with
    regs := { s.regs with
      crcAcc := crc8 (frameHead cmd (s.readRange .pay 0 len.toNat))
      feFlen := BitVec.ofNat 17 (len.toNat + 8) } }

/-- What an instruction may have done to a state, but for the result word, and under which conditions. A refused
instruction, and one that only answers a result, has the effect `unchanged`. -/
inductive Effect (s : State) : Instr → State → Prop
  | unchanged (i : Instr) : Effect s i s
  | reset : Effect s .sysReset { s with regs := Regs.reset }
  | write {rn : BitVec 8} {r : Reg} (v : Word) (hnumber : regOfNumber rn = some r) (hrw : r.writable = true)
      (hstate : s.regs.htState ≠ .run) : Effect s (.regWr rn v) { s with regs := s.regs.write r v }
  | store {id : BitVec 8} {sp : Space} {a : Word} (b : Byte) (hspace : spaceOfId id = some sp)
      (ha : a.toNat < s.size sp) : Effect s (.memWr id a b) (s.writeByte sp a.toNat b)
  | crc {i : Instr} (c : Byte) (hi : SetsCrc i) : Effect s i (s.setCrc c)
  | frame {i : Instr} {len : BitVec 16} (cmd : Byte) (hi : BuildsFrame i len)
      (hlen : len.toNat ≤ s.params.payloadMax) : Effect s i (s.withFrame cmd len)
  | notification {i : Instr} {nd : NdRegs} (hi : DecodesNtf i) (hkind : nd.kind ≠ .none) :
      Effect s i { s with regs := { s.regs with nd := nd } }
  | start (hlegal : legalConfig s.params s.regs) : Effect s .htStart s.startBody
  | pixel (hstate : s.regs.htState = .run) (hraster : sequencerInRaster s.params s.regs) :
      Effect s .htStep s.pixelStep
  | run (hstate : s.regs.htState = .run) (hraster : sequencerInRaster s.params s.regs) : Effect s .htRun s.runBody
  | convert (hlegal : legalConfig s.params s.regs) : Effect s .htConvert s.startBody.runBody

/-- The instruction may lead from `s` to `t`: its effect, and a result word. -/
def LeadsTo (s : State) (i : Instr) (t : State) : Prop :=
  ∃ u res, Effect s i u ∧ t = { u with result := some res }

theorem LeadsTo.of_finish {s u t : State} {i : Instr} {r : Word} (he : Effect s i u) (h : u.finish r = .next t) :
    LeadsTo s i t :=
  ⟨u, _, he, State.finish_eq h⟩

theorem LeadsTo.of_refuse {s t : State} {c : Status} (i : Instr) (h : s.refuse c = .next t) : LeadsTo s i t :=
  ⟨s, _, .unchanged i, State.refuse_eq h⟩

/-! ## Notifications -/

theorem State.ndFields_kind (s : State) (cmd : Byte) (base : NdRegs) : (s.ndFields cmd base).kind ≠ .none := by
  unfold State.ndFields
  split
  · simp
  · split
    · simp
    · split <;> simp

/-- A decode always leaves a kind: its case, or RAW (R126). -/
theorem State.decodeNtf_kind (s : State) (cmd : Byte) (n : Word) (cmdv : Bool) :
    (s.decodeNtf cmd n cmdv).kind ≠ .none := by
  unfold State.decodeNtf
  split
  · exact s.ndFields_kind _ _
  · simp

theorem State.finishNd_leadsTo {s t : State} {i : Instr} {nd : NdRegs} (hi : DecodesNtf i) (hkind : nd.kind ≠ .none)
    (h : s.finishNd nd = .next t) : LeadsTo s i t :=
  .of_finish (.notification hi hkind) h

/-! ## One lemma per operation that can be refused -/

section operations
variable {s t : State}

theorem execRegRd_leadsTo {rn : BitVec 8} (h : execRegRd rn s = .next t) : LeadsTo s (.regRd rn) t := by
  unfold execRegRd at h
  split at h
  · exact .of_refuse _ h
  · exact .of_finish (.unchanged _) h

theorem execRegWr_leadsTo {rn : BitVec 8} {v : Word} (h : execRegWr rn v s = .next t) :
    LeadsTo s (.regWr rn v) t := by
  unfold execRegWr at h
  split at h
  · exact .of_refuse _ h
  next r hr =>
    split_ifs at h with hro hrun
    · exact .of_refuse _ h
    · exact .of_refuse _ h
    · exact .of_finish (.write v hr (by simpa using hro) hrun) h

theorem execMemRd_leadsTo {id : BitVec 8} {a : Word} (h : execMemRd id a s = .next t) :
    LeadsTo s (.memRd id a) t := by
  unfold execMemRd at h
  split at h
  · exact .of_refuse _ h
  · split_ifs at h
    · exact .of_refuse _ h
    · exact .of_finish (.unchanged _) h

theorem execMemWr_leadsTo {id : BitVec 8} {a : Word} {b : Byte} (h : execMemWr id a b s = .next t) :
    LeadsTo s (.memWr id a b) t := by
  unfold execMemWr at h
  split at h
  · exact .of_refuse _ h
  next sp hsp =>
    split_ifs at h with ha
    · exact .of_refuse _ h
    · exact .of_finish (.store b hsp (Nat.lt_of_not_le ha)) h

theorem execCrcBuf_leadsTo {id : BitVec 8} {a n : Word} (h : execCrcBuf id a n s = .next t) :
    LeadsTo s (.crcBuf id a n) t := by
  unfold execCrcBuf at h
  split at h
  · exact .of_refuse _ h
  · split_ifs at h
    · exact .of_refuse _ h
    · exact .of_finish (.crc _ (.inr (.inr (.inl ⟨id, a, n, rfl⟩)))) h

theorem execFeCheck_leadsTo {n : Word} (h : execFeCheck n s = .next t) : LeadsTo s (.feCheck n) t := by
  unfold execFeCheck at h
  split_ifs at h
  · exact .of_refuse _ h
  · exact .of_finish (.unchanged _) h
  · exact .of_finish (.unchanged _) h
  · exact .of_finish (.crc _ (.inr (.inr (.inr ⟨n, rfl⟩)))) h

theorem buildFrame_leadsTo {i : Instr} {cmd : Byte} {len : BitVec 16} (hi : BuildsFrame i len)
    (h : s.buildFrame cmd len = .next t) : LeadsTo s i t := by
  obtain ⟨-, ht⟩ | ⟨hlen, ht⟩ := State.buildFrame_cases h
  · exact ⟨s, _, .unchanged i, ht⟩
  · exact ⟨s.withFrame cmd len, _, .frame cmd hi hlen, ht⟩

theorem execRow_leadsTo (c : CommandId) {len : BitVec 16} (h : exec (c.row len) s = .next t) :
    LeadsTo s (c.row len) t :=
  buildFrame_leadsTo (buildsFrame_row c len) ((exec_row c len s).symm.trans h)

theorem execFdParse_leadsTo {cmd : Byte} {n : Word} (h : execFdParse cmd n s = .next t) :
    LeadsTo s (.fdParse cmd n) t := by
  unfold execFdParse at h
  split_ifs at h
  · exact .of_refuse _ h
  · exact State.finishNd_leadsTo (.inl ⟨cmd, n, rfl⟩) (s.decodeNtf_kind _ _ _) h

theorem execFdNotify_leadsTo {n : Word} (h : execFdNotify n s = .next t) : LeadsTo s (.fdNotify n) t := by
  unfold execFdNotify at h
  split_ifs at h
  · exact .of_refuse _ h
  · exact State.finishNd_leadsTo (.inr ⟨n, rfl⟩) (s.decodeNtf_kind _ _ _) h
  · exact State.finishNd_leadsTo (.inr ⟨n, rfl⟩) (s.decodeNtf_kind _ _ _) h

theorem execHtStart_leadsTo (h : execHtStart s = .next t) : LeadsTo s .htStart t := by
  unfold execHtStart at h
  split_ifs at h with hlegal
  · exact .of_finish (.start hlegal) h
  · exact .of_refuse _ h

theorem execHtStep_leadsTo (h : execHtStep s = .next t) : LeadsTo s .htStep t := by
  unfold execHtStep at h
  split_ifs at h with hstate hraster
  · exact .of_refuse _ h
  · exact .of_finish (.pixel (not_not.mp hstate) hraster) h

theorem execHtRun_leadsTo (h : execHtRun s = .next t) : LeadsTo s .htRun t := by
  unfold execHtRun at h
  split_ifs at h with hstate hraster
  · exact .of_refuse _ h
  · exact .of_finish (.run (not_not.mp hstate) hraster) h

theorem execHtConvert_leadsTo (h : execHtConvert s = .next t) : LeadsTo s .htConvert t := by
  unfold execHtConvert at h
  split_ifs at h with hlegal
  · exact .of_finish (.convert hlegal) h
  · exact .of_refuse _ h

end operations

/-! ## All instructions, and a step -/

/-- What every instruction that answers a next state has done. -/
theorem exec_leadsTo {s t : State} {i : Instr} (h : exec i s = .next t) : LeadsTo s i t := by
  cases i with
  | nop => exact .of_finish (.unchanged _) h
  | sysReset => exact .of_finish .reset h
  | regRd rn => exact execRegRd_leadsTo h
  | regWr rn v => exact execRegWr_leadsTo h
  | memRd id a => exact execMemRd_leadsTo h
  | memWr id a b => exact execMemWr_leadsTo h
  | crcClr => exact .of_finish (.crc _ (.inl rfl)) h
  | crcByte b => exact .of_finish (.crc _ (.inr (.inl ⟨b, rfl⟩))) h
  | crcBuf id a n => exact execCrcBuf_leadsTo h
  | feBuild cmd len => exact buildFrame_leadsTo (.inl ⟨cmd, rfl⟩) h
  | feCheck n => exact execFeCheck_leadsTo h
  | fdParse cmd n => exact execFdParse_leadsTo h
  | fdNotify n => exact execFdNotify_leadsTo h
  | htStart => exact execHtStart_leadsTo h
  | htStep => exact execHtStep_leadsTo h
  | htRun => exact execHtRun_leadsTo h
  | htConvert => exact execHtConvert_leadsTo h
  | frameGetStatus len => exact execRow_leadsTo .getStatus h
  | framePrintIntensity len => exact execRow_leadsTo .printIntensity h
  | frameQueryCount len => exact execRow_leadsTo .queryCount h
  | framePrint len => exact execRow_leadsTo .print h
  | framePrintComplete len => exact execRow_leadsTo .printComplete h
  | frameBatteryLevel len => exact execRow_leadsTo .batteryLevel h
  | frameCancelPrint len => exact execRow_leadsTo .cancelPrint h
  | framePrintDataFlush len => exact execRow_leadsTo .printDataFlush h
  | frameGetPrintType len => exact execRow_leadsTo .getPrintType h
  | frameGetVersion len => exact execRow_leadsTo .getVersion h

/-- What a rejected item does, where the machine goes on: the refusal of a reserved selector. -/
theorem State.rejected_eq {s t : State} {e : DecodeError} (h : s.rejected e = .next t) :
    t = { s with result := some { st := .eOp, r := 0 } } := by
  cases e with
  | reservedSelector sel => exact State.refuse_eq h
  | frameHeaderLength => cases h
  | frameHeaderByte => cases h
  | frameIdentifier cmd => cases h

/-- A step that answers a next state found nothing presented, or took the first item and ran its instruction, or
took it and refused it with `E_OP`. -/
theorem step_cases {s t : State} (h : step s = .next t) :
    (s.port = [] ∧ t = s) ∨
    ∃ item rest, s.port = item :: rest ∧
      ((∃ i, decode item = .ok i ∧ exec i { s with port := rest } = .next t) ∨
        t = { s with port := rest, result := some { st := .eOp, r := 0 } }) := by
  unfold step State.accept at h
  cases hp : s.port with
  | nil =>
    simp only [hp] at h
    cases h
    exact .inl ⟨rfl, rfl⟩
  | cons item rest =>
    simp only [hp] at h
    refine .inr ⟨item, rest, rfl, ?_⟩
    cases hd : decode item with
    | ok i =>
      rw [hd] at h
      exact .inl ⟨i, rfl, h⟩
    | error e =>
      rw [hd] at h
      exact .inr (State.rejected_eq h)

end Sys2Proof.Machine
end
section
/-! SUPPORT. The invariant of Safety.lean taken apart into the sizes, the memories and the registers, and that every
effect keeps it. -/

namespace Sys2Proof.Machine

/-! ## The registers' part of the invariant -/

/-- The clauses of `State.Inv` about the registers, for an implementation with sizes `p`. -/
structure Regs.Ok (p : Params) (g : Regs) : Prop where
  runInRaster : g.htState = .run → sequencerInRaster p g
  columnZero  : g.htState ≠ .run → g.htX = 0
  frameLength : g.feFlen = 0 ∨ (8 ≤ g.feFlen.toNat ∧ g.feFlen.toNat ≤ p.payloadMax + 8)
  undecoded   : g.nd.kind = .none → g.nd = NdRegs.zero

theorem State.inv_iff (s : State) : s.Inv ↔ s.params.legal ∧ s.MemOk ∧ s.regs.Ok s.params :=
  ⟨fun h => ⟨h.paramsLegal, h.memOk, ⟨h.runInRaster, h.columnZero, h.frameLength, h.undecoded⟩⟩,
    fun ⟨hp, hm, hg⟩ => ⟨hp, hm, hg.runInRaster, hg.columnZero, hg.frameLength, hg.undecoded⟩⟩

section write
variable (g : Regs) (r : Reg) (v : Word)
@[simp] theorem Regs.write_crcAcc : (g.write r v).crcAcc = g.crcAcc := by cases r <;> rfl
@[simp] theorem Regs.write_feFlen : (g.write r v).feFlen = g.feFlen := by cases r <;> rfl
@[simp] theorem Regs.write_htX : (g.write r v).htX = g.htX := by cases r <;> rfl
@[simp] theorem Regs.write_htY : (g.write r v).htY = g.htY := by cases r <;> rfl
@[simp] theorem Regs.write_htState : (g.write r v).htState = g.htState := by cases r <;> rfl
@[simp] theorem Regs.write_nd : (g.write r v).nd = g.nd := by cases r <;> rfl
end write

theorem Regs.Ok.reset (p : Params) : Regs.reset.Ok p where
  runInRaster := fun h => absurd h (by decide)
  columnZero  := fun _ => rfl
  frameLength := .inl rfl
  undecoded   := fun _ => rfl

section keeps
variable {p : Params} {g : Regs}

/-- Outside RUN the configuration is free (R103). -/
theorem Regs.Ok.write (h : g.Ok p) (hstate : g.htState ≠ .run) (r : Reg) (v : Word) : (g.write r v).Ok p where
  runInRaster := fun hrun => absurd (g.write_htState r v ▸ hrun) hstate
  columnZero  := fun _ => (g.write_htX r v).trans (h.columnZero hstate)
  frameLength := by simpa using h.frameLength
  undecoded   := by simpa using h.undecoded

theorem Regs.Ok.setCrc (h : g.Ok p) (c : Byte) : Regs.Ok p { g with crcAcc := c } where
  runInRaster := h.runInRaster
  columnZero  := h.columnZero
  frameLength := h.frameLength
  undecoded   := h.undecoded

/-- A payload that PAY can hold gives a length that `FE_FLEN` can hold (R23, R122). -/
theorem Regs.Ok.setFrameLength (h : g.Ok p) {len : BitVec 16} (hlen : len.toNat ≤ p.payloadMax) :
    Regs.Ok p { g with feFlen := BitVec.ofNat 17 (len.toNat + 8) } where
  runInRaster := h.runInRaster
  columnZero  := h.columnZero
  frameLength := by
    have hfits : (BitVec.ofNat 17 (len.toNat + 8)).toNat = len.toNat + 8 := by
      rw [BitVec.toNat_ofNat, Nat.mod_eq_of_lt (by have := len.isLt; omega)]
    right
    simp only [hfits]
    omega
  undecoded   := h.undecoded

theorem Regs.Ok.setNd (h : g.Ok p) {nd : NdRegs} (hkind : nd.kind ≠ .none) : Regs.Ok p { g with nd := nd } where
  runInRaster := h.runInRaster
  columnZero  := h.columnZero
  frameLength := h.frameLength
  undecoded   := fun hnone => absurd hnone hkind

/-- A conversion starts on pixel (0, 0) of a raster that is not empty (R140, R151). -/
theorem Regs.Ok.start (h : g.Ok p) (hlegal : legalConfig p g) :
    Regs.Ok p { g with htX := 0, htY := 0, htState := .run } where
  runInRaster := fun _ => ⟨hlegal, hlegal.2.1⟩
  columnZero  := fun hstate => absurd rfl hstate
  frameLength := h.frameLength
  undecoded   := h.undecoded

/-- An advance stays in the raster, or ends the conversion with the column at 0 (R148). -/
theorem Regs.Ok.advance (h : g.Ok p) (hstate : g.htState = .run) : g.advance.Ok p where
  runInRaster := fun hrun => by
    obtain ⟨-, hraster⟩ | ⟨hdone, -⟩ := sequencerInRaster_advance (h.runInRaster hstate) hstate
    · exact hraster
    · rw [hdone] at hrun
      cases hrun
  columnZero  := fun hnot => by
    obtain ⟨hrun, -⟩ | ⟨-, hx, -⟩ := sequencerInRaster_advance (h.runInRaster hstate) hstate
    · exact absurd hrun hnot
    · exact hx
  frameLength := by simpa using h.frameLength
  undecoded   := by simpa using h.undecoded

end keeps

/-! ## Every effect keeps the invariant -/

section effects
variable {s t : State}

/-- The invariant does not read the result word, the port or the power-on. -/
theorem State.Inv.congr (h : s.Inv) (hg : t.regs = s.regs) (hm : t.mem = s.mem) (hp : t.params = s.params) : t.Inv := by
  obtain ⟨hlegal, hmem, hregs⟩ := s.inv_iff.mp h
  exact t.inv_iff.mpr ⟨hp ▸ hlegal, hmem.congr hm hp, by rw [hg, hp]; exact hregs⟩

theorem State.Inv.setRegs (h : s.Inv) {g : Regs} (hg : g.Ok s.params) : State.Inv { s with regs := g } :=
  (State.inv_iff _).mpr ⟨h.paramsLegal, h.memOk, hg⟩

theorem State.Inv.setMem (h : s.Inv) (ht : t.MemOk) (hg : t.regs = s.regs) (hp : t.params = s.params) : t.Inv := by
  obtain ⟨hlegal, -, hregs⟩ := s.inv_iff.mp h
  exact t.inv_iff.mpr ⟨hp ▸ hlegal, ht, by rw [hg, hp]; exact hregs⟩

theorem State.Inv.regsOk (h : s.Inv) : s.regs.Ok s.params := (s.inv_iff.mp h).2.2

/-- The frame fits FRM, which is eight bytes longer than PAY (R50). -/
theorem State.Inv.withFrame (h : s.Inv) (cmd : Byte) {len : BitVec 16} (hlen : len.toNat ≤ s.params.payloadMax) :
    (s.withFrame cmd len).Inv := by
  have hfits : 0 + (Machine.buildFrame cmd (s.readRange .pay 0 len.toNat)).length ≤ s.size .frm := by
    rw [buildFrame_length, State.readRange_length]
    show _ ≤ s.params.payloadMax + 8
    omega
  have hwritten := h.setMem (State.MemOk.writeRange h.memOk hfits) (by simp) (by simp)
  refine hwritten.setRegs ?_
  rw [State.writeRange_params]
  exact (h.regsOk.setCrc _).setFrameLength hlen

theorem State.Inv.startBody (h : s.Inv) (hlegal : legalConfig s.params s.regs) : s.startBody.Inv := by
  refine (State.inv_iff _).mpr ⟨?_, State.MemOk.startBody h.memOk hlegal, ?_⟩
  · simpa using h.paramsLegal
  · simpa using h.regsOk.start hlegal

theorem State.Inv.pixelStep (h : s.Inv) (hstate : s.regs.htState = .run) : s.pixelStep.Inv := by
  refine (State.inv_iff _).mpr ⟨?_, State.MemOk.pixelStep h.memOk (h.runInRaster hstate), ?_⟩
  · simpa using h.paramsLegal
  · simpa using h.regsOk.advance hstate

/-- The loop of `HT.RUN` keeps what each of its pixel steps keeps. -/
theorem State.Inv.runBody (h : s.Inv) : s.runBody.Inv :=
  State.pixelSteps_keeps State.Inv (fun _ hstate ht => ht.pixelStep hstate) _ s h

theorem Effect.inv {i : Instr} (he : Effect s i t) (h : s.Inv) : t.Inv := by
  cases he with
  | unchanged => exact h
  | reset => exact h.setRegs (.reset _)
  | write v hnumber hrw hstate => exact h.setRegs (h.regsOk.write hstate _ v)
  | store b hspace ha => exact h.setMem (State.MemOk.writeByte h.memOk ha b) rfl rfl
  | crc c hi => exact h.setRegs (h.regsOk.setCrc c)
  | frame cmd hi hlen => exact h.withFrame cmd hlen
  | notification hi hkind => exact h.setRegs (h.regsOk.setNd hkind)
  | start hlegal => exact h.startBody hlegal
  | pixel hstate hraster => exact h.pixelStep hstate
  | run hstate hraster => exact h.runBody
  | convert hlegal => exact (h.startBody hlegal).runBody

/-- Every instruction that answers a next state keeps the invariant. -/
theorem exec_inv {i : Instr} (h : s.Inv) (hi : exec i s = .next t) : t.Inv := by
  obtain ⟨u, res, he, rfl⟩ := exec_leadsTo hi
  exact (he.inv h).congr rfl rfl rfl

end effects

theorem State.Inv.powerOn {p : Params} (hp : p.legal) (k : Nat) : (State.powerOn p k).Inv := by
  refine (State.inv_iff _).mpr ⟨hp, fun sp => ?_, .reset _⟩
  rw [State.powerOn_get]
  exact ⟨.nil, fun c hc => by cases hc⟩

theorem Params.suggested_legal : Params.suggested.legal := by decide

/-- Settles O43: a step takes an item off the port, which the invariant does not read, and every effect an
instruction can have keeps the invariant. -/
theorem stepKeepsTheInvariant : Obligations.StepKeepsTheInvariant := by
  intro s t h hstep
  obtain ⟨-, rfl⟩ | ⟨item, rest, -, ⟨i, -, hi⟩ | rfl⟩ := step_cases hstep
  · exact h
  · exact exec_inv (h.congr (t := { s with port := rest }) rfl rfl rfl) hi
  · exact h.congr rfl rfl rfl

/-- Settles O44: nothing is written at power-on, and the registers' reset values meet their part of the invariant. -/
theorem powerOnMeetsTheInvariant : Obligations.PowerOnMeetsTheInvariant :=
  ⟨fun _ k hp => .powerOn hp k, .powerOn Params.suggested_legal 0⟩

end Sys2Proof.Machine
end

section
/-! SUPPORT. No effect changes the sizes, the power-on or what is presented next. -/

namespace Sys2Proof.Machine

open Sys2Proof.Rules

theorem sameOutside_refl (s : State) : SameOutside s s := ⟨rfl, rfl, rfl⟩

theorem sameOutside_trans {s t u : State} (h : SameOutside s t) (k : SameOutside t u) : SameOutside s u :=
  ⟨k.1.trans h.1, k.2.1.trans h.2.1, k.2.2.trans h.2.2⟩

theorem State.writeRange_sameOutside (s : State) (sp : Space) (a : Nat) (bs : List Byte) :
    SameOutside s (s.writeRange sp a bs) := by
  simp [SameOutside]

theorem State.startBody_sameOutside (s : State) : SameOutside s s.startBody := by simp [SameOutside]

theorem State.pixelStep_sameOutside (s : State) : SameOutside s s.pixelStep := by simp [SameOutside]

/-- The loop of `HT.RUN` leaves alone what each of its pixel steps leaves alone. -/
theorem State.runBody_sameOutside (s : State) : SameOutside s s.runBody :=
  State.pixelSteps_keeps (SameOutside s) (fun t _ h => sameOutside_trans h t.pixelStep_sameOutside) _ s
    (sameOutside_refl s)

theorem Effect.sameOutside {s t : State} {i : Instr} (he : Effect s i t) : SameOutside s t := by
  cases he with
  | unchanged => exact sameOutside_refl s
  | reset => exact ⟨rfl, rfl, rfl⟩
  | write => exact ⟨rfl, rfl, rfl⟩
  | store => exact ⟨rfl, rfl, rfl⟩
  | crc => exact ⟨rfl, rfl, rfl⟩
  | frame => exact s.writeRange_sameOutside _ _ _
  | notification => exact ⟨rfl, rfl, rfl⟩
  | start => exact s.startBody_sameOutside
  | pixel => exact s.pixelStep_sameOutside
  | run => exact s.runBody_sameOutside
  | convert => exact sameOutside_trans s.startBody_sameOutside s.startBody.runBody_sameOutside

/-- Settles O52: no effect touches the three fields, and the result word is none of them. -/
theorem noInstructionChangesTheImplementation : Obligations.NoInstructionChangesTheImplementation := by
  intro s t i h
  obtain ⟨u, res, he, rfl⟩ := exec_leadsTo h
  exact he.sameOutside

end Sys2Proof.Machine
end

section
/-! SUPPORT. A step with nothing presented. -/

namespace Sys2Proof.Machine

theorem State.accept_eq_none {s : State} (h : s.port = []) : s.accept = none := by
  simp [State.accept, h]

/-- Settles O6: the block finds nothing to accept. -/
theorem idleStepChangesNothing : Obligations.IdleStepChangesNothing := by
  intro s h
  simp [step, State.accept_eq_none h]

end Sys2Proof.Machine
end

section
/-! SUPPORT. Which instructions write which registers (R23). -/

namespace Sys2Proof.Machine

open Sys2Proof.Rules

/-- R23: RW are the four configuration registers and no others. -/
theorem Reg.number_mem_readWriteNumbers (r : Reg) : r.number ∈ readWriteNumbers ↔ r.writable = true := by
  cases r <;> decide

@[simp] theorem State.withFrame_regs (s : State) (cmd : Byte) (len : BitVec 16) :
    (s.withFrame cmd len).regs =
      { s.regs with
        crcAcc := crc8 (frameHead cmd (s.readRange .pay 0 len.toNat))
        feFlen := BitVec.ofNat 17 (len.toNat + 8) } := rfl

/-! ## The registers that the loop of pixel steps leaves alone -/

section runBody
variable (s : State)

theorem State.runBody_config :
    s.runBody.regs.htW = s.regs.htW ∧ s.runBody.regs.htH = s.regs.htH ∧ s.runBody.regs.htBpl = s.regs.htBpl ∧
    s.runBody.regs.htMode = s.regs.htMode ∧ s.runBody.regs.crcAcc = s.regs.crcAcc ∧
    s.runBody.regs.feFlen = s.regs.feFlen ∧ s.runBody.regs.nd = s.regs.nd :=
  (State.pixelSteps_same s.regs.pixelsLeft s).1

@[simp] theorem State.runBody_htW : s.runBody.regs.htW = s.regs.htW := s.runBody_config.1
@[simp] theorem State.runBody_htH : s.runBody.regs.htH = s.regs.htH := s.runBody_config.2.1
@[simp] theorem State.runBody_htBpl : s.runBody.regs.htBpl = s.regs.htBpl := s.runBody_config.2.2.1
@[simp] theorem State.runBody_htMode : s.runBody.regs.htMode = s.regs.htMode := s.runBody_config.2.2.2.1
@[simp] theorem State.runBody_crcAcc : s.runBody.regs.crcAcc = s.regs.crcAcc := s.runBody_config.2.2.2.2.1
@[simp] theorem State.runBody_feFlen : s.runBody.regs.feFlen = s.regs.feFlen := s.runBody_config.2.2.2.2.2.1
@[simp] theorem State.runBody_nd : s.runBody.regs.nd = s.regs.nd := s.runBody_config.2.2.2.2.2.2
end runBody

/-! ## The writers of the registers -/

/-- Settles O50: each effect writes one group of registers, and its instruction is a writer of that group; the other
groups are as they were. -/
theorem registersChangeOnlyByTheirWriters : Obligations.RegistersChangeOnlyByTheirWriters := by
  intro s t i h hreset
  obtain ⟨u, res, he, rfl⟩ := exec_leadsTo h
  cases he with
  | unchanged => exact ⟨by simp, by simp, by simp, by simp, by simp⟩
  | reset => exact absurd rfl hreset
  | write v hnumber hrw hstate =>
    have hrn := (Reg.number_mem_readWriteNumbers _).mpr hrw
    rw [number_of_regOfNumber hnumber] at hrn
    exact ⟨by simp, by simp, fun _ => ⟨_, v, rfl, hrn⟩, by simp, by simp⟩
  | store => exact ⟨by simp, by simp, by simp, by simp, by simp⟩
  | crc c hi =>
    exact ⟨fun _ => by simpa only [SetsCrc, or_assoc] using Or.inl hi, by simp, by simp, by simp, by simp⟩
  | frame cmd hi hlen =>
    exact ⟨fun _ => .inr (.inr (.inr (.inr ⟨_, hi⟩))), fun _ => ⟨_, hi⟩, by simp, by simp, by simp⟩
  | notification hi hkind => exact ⟨by simp, by simp, by simp, by simp, fun _ => hi⟩
  | start => exact ⟨by simp, by simp, by simp, fun _ => .inl rfl, by simp⟩
  | pixel => exact ⟨by simp, by simp, by simp, fun _ => .inr (.inl rfl), by simp⟩
  | run => exact ⟨by simp, by simp, by simp, fun _ => .inr (.inr (.inl rfl)), by simp⟩
  | convert => exact ⟨by simp, by simp, by simp, fun _ => .inr (.inr (.inr rfl)), by simp⟩

end Sys2Proof.Machine
end

section
/-! SUPPORT. Every instruction answers a next state, but for the pixel steps outside the raster. -/

namespace Sys2Proof.Machine

open Sys2Proof.Rules

/-! ## R27 and R140 as the model tests them -/

/-- The model's legality and R140's are the same. -/
theorem legal_iff (s : State) : Legal s ↔ legalConfig s.params s.regs := by
  constructor
  · rintro ⟨⟨hmode, hcols⟩ | ⟨hmode, hcols⟩, hw, hh, hpix, hpck⟩
    · exact ⟨.inl hmode, ⟨hw, hh⟩, fun _ => hcols, fun hgray => absurd (hmode.symm.trans hgray) (by decide), hpix,
        hpck⟩
    · exact ⟨.inr hmode, ⟨hw, hh⟩, fun hmono => absurd (hmode.symm.trans hmono) (by decide), fun _ => hcols, hpix,
        hpck⟩
  · rintro ⟨hmode, ⟨hw, hh⟩, hmono, hgray, hpix, hpck⟩
    exact ⟨hmode.imp (fun h => ⟨h, hmono h⟩) (fun h => ⟨h, hgray h⟩), hw, hh, hpix, hpck⟩

/-- The model's guard of `HT.STEP` and `HT.RUN` is R27's running conversion. -/
theorem running_iff (s : State) : Running s ↔ s.regs.htState = .run ∧ sequencerInRaster s.params s.regs :=
  and_congr_right fun _ => and_congr_left fun _ => legal_iff s

/-! ## The one case without a next state -/

/-- The instruction is a pixel step, or the loop of them, in RUN with R27's invariant broken (log entry 6). -/
def StepsOutsideRaster (s : State) (i : Instr) : Prop :=
  (i = .htStep ∨ i = .htRun) ∧ s.regs.htState = .run ∧ ¬ sequencerInRaster s.params s.regs

/-! ## One lemma per operation that can be refused -/

section operations
variable {s : State}

theorem execRegRd_next (rn : BitVec 8) : ∃ t, execRegRd rn s = .next t := by
  unfold execRegRd
  split <;> exact ⟨_, rfl⟩

theorem execRegWr_next (rn : BitVec 8) (v : Word) : ∃ t, execRegWr rn v s = .next t := by
  unfold execRegWr
  split
  · exact ⟨_, rfl⟩
  · split_ifs <;> exact ⟨_, rfl⟩

theorem execMemRd_next (id : BitVec 8) (a : Word) : ∃ t, execMemRd id a s = .next t := by
  unfold execMemRd
  split
  · exact ⟨_, rfl⟩
  · split_ifs <;> exact ⟨_, rfl⟩

theorem execMemWr_next (id : BitVec 8) (a : Word) (b : Byte) : ∃ t, execMemWr id a b s = .next t := by
  unfold execMemWr
  split
  · exact ⟨_, rfl⟩
  · split_ifs <;> exact ⟨_, rfl⟩

theorem execCrcBuf_next (id : BitVec 8) (a n : Word) : ∃ t, execCrcBuf id a n s = .next t := by
  unfold execCrcBuf
  split
  · exact ⟨_, rfl⟩
  · split_ifs <;> exact ⟨_, rfl⟩

theorem buildFrame_next (cmd : Byte) (len : BitVec 16) : ∃ t, s.buildFrame cmd len = .next t := by
  unfold State.buildFrame
  split_ifs <;> exact ⟨_, rfl⟩

theorem execFeCheck_next (n : Word) : ∃ t, execFeCheck n s = .next t := by
  unfold execFeCheck
  split_ifs <;> exact ⟨_, rfl⟩

theorem execFdParse_next (cmd : Byte) (n : Word) : ∃ t, execFdParse cmd n s = .next t := by
  unfold execFdParse
  split_ifs <;> exact ⟨_, rfl⟩

theorem execFdNotify_next (n : Word) : ∃ t, execFdNotify n s = .next t := by
  unfold execFdNotify
  split_ifs <;> exact ⟨_, rfl⟩

theorem execHtStart_next : ∃ t, execHtStart s = .next t := by
  unfold execHtStart
  split_ifs <;> exact ⟨_, rfl⟩

theorem execHtStep_next (h : ¬ StepsOutsideRaster s .htStep) : ∃ t, execHtStep s = .next t := by
  unfold execHtStep
  split_ifs with hstate hraster
  · exact ⟨_, rfl⟩
  · exact ⟨_, rfl⟩
  · exact absurd ⟨.inl rfl, not_not.mp hstate, hraster⟩ h

theorem execHtRun_next (h : ¬ StepsOutsideRaster s .htRun) : ∃ t, execHtRun s = .next t := by
  unfold execHtRun
  split_ifs with hstate hraster
  · exact ⟨_, rfl⟩
  · exact ⟨_, rfl⟩
  · exact absurd ⟨.inr rfl, not_not.mp hstate, hraster⟩ h

theorem execHtConvert_next : ∃ t, execHtConvert s = .next t := by
  unfold execHtConvert
  split_ifs <;> exact ⟨_, rfl⟩

end operations

/-! ## All instructions -/

/-- Every instruction answers a next state, but for the pixel steps outside the raster. -/
theorem exec_next {s : State} {i : Instr} (h : ¬ StepsOutsideRaster s i) : ∃ t, exec i s = .next t := by
  cases i with
  | nop => exact ⟨_, rfl⟩
  | sysReset => exact ⟨_, rfl⟩
  | regRd rn => exact execRegRd_next rn
  | regWr rn v => exact execRegWr_next rn v
  | memRd id a => exact execMemRd_next id a
  | memWr id a b => exact execMemWr_next id a b
  | crcClr => exact ⟨_, rfl⟩
  | crcByte b => exact ⟨_, rfl⟩
  | crcBuf id a n => exact execCrcBuf_next id a n
  | feBuild cmd len => exact buildFrame_next cmd len
  | feCheck n => exact execFeCheck_next n
  | fdParse cmd n => exact execFdParse_next cmd n
  | fdNotify n => exact execFdNotify_next n
  | htStart => exact execHtStart_next
  | htStep => exact execHtStep_next h
  | htRun => exact execHtRun_next h
  | htConvert => exact execHtConvert_next
  | frameGetStatus len => exact buildFrame_next _ len
  | framePrintIntensity len => exact buildFrame_next _ len
  | frameQueryCount len => exact buildFrame_next _ len
  | framePrint len => exact buildFrame_next _ len
  | framePrintComplete len => exact buildFrame_next _ len
  | frameBatteryLevel len => exact buildFrame_next _ len
  | frameCancelPrint len => exact buildFrame_next _ len
  | framePrintDataFlush len => exact buildFrame_next _ len
  | frameGetPrintType len => exact buildFrame_next _ len
  | frameGetVersion len => exact buildFrame_next _ len

/-- A fault is a pixel step outside the raster. -/
theorem stepsOutsideRaster_of_fault {s : State} {i : Instr} {f : Fault} (h : exec i s = .fault f) :
    StepsOutsideRaster s i := by
  by_contra hin
  obtain ⟨t, ht⟩ := exec_next hin
  rw [ht] at h
  cases h

/-- Settles O53: what faults is a pixel step outside the raster, and both a running conversion and the invariant
keep the sequencer within it. -/
theorem faultOnlyOutsideTheInvariant : Obligations.FaultOnlyOutsideTheInvariant := by
  intro s i f h
  obtain ⟨hi, hrun, hout⟩ := stepsOutsideRaster_of_fault h
  refine ⟨hi, hrun, fun hrunning => ?_, fun hinv => hout (hinv.runInRaster hrun)⟩
  exact hout ((running_iff s).mp hrunning).2

end Sys2Proof.Machine
end

section
/-! SUPPORT. `MEM.RD` and `MEM.WR` (R54, R57, R104, R105): what a read answers, and what a write leaves behind. -/

namespace Sys2Proof.Machine

open Sys2Proof.Rules

/-- R50's table is the model's map of identifiers together with its sizes. -/
theorem mem_spaces_iff (p : Params) (id : BitVec 8) (sp : Space) (n : Nat) :
    (id, sp, n) ∈ spaces p ↔ spaceOfId id = some sp ∧ n = spaceSize p sp := by
  constructor
  · intro h
    simp only [spaces, List.mem_cons, Prod.mk.injEq, List.not_mem_nil, or_false] at h
    obtain ⟨rfl, rfl, rfl⟩ | ⟨rfl, rfl, rfl⟩ | ⟨rfl, rfl, rfl⟩ | ⟨rfl, rfl, rfl⟩ | ⟨rfl, rfl, rfl⟩ := h <;>
      exact ⟨rfl, rfl⟩
  · rintro ⟨hid, rfl⟩
    unfold spaceOfId at hid
    split_ifs at hid <;> cases hid <;> simp [spaces, spaceSize, *]

@[simp] theorem readByte_ok (s : State) (r : Word) (sp : Space) (a : Nat) :
    (ok s r).readByte sp a = s.readByte sp a := rfl

section reads
variable {s t : State} {id : BitVec 8} {sp : Space} {a : Word}

/-- A read of a legal address answers the byte that stands there (R104). -/
theorem exec_memRd_legal (hsp : spaceOfId id = some sp) (ha : a.toNat < s.size sp) :
    exec (.memRd id a) s = .next (ok s ((s.readByte sp a.toNat).setWidth 32)) := by
  show execMemRd id a s = _
  simp only [execMemRd, hsp, if_neg (Nat.not_le.mpr ha)]
  rfl

/-- A read does not look at the last result word. -/
theorem exec_memRd_with_result (s : State) (res : Option Result) (id : BitVec 8) (a : Word) :
    exec (.memRd id a) { s with result := res } = exec (.memRd id a) s := by
  show execMemRd id a { s with result := res } = execMemRd id a s
  unfold execMemRd
  cases spaceOfId id <;> rfl

/-- A read changes nothing but the result word. -/
theorem eq_with_result_of_exec_memRd (h : exec (.memRd id a) s = .next t) :
    ∃ res, t = { s with result := some res } := by
  change execMemRd id a s = .next t at h
  unfold execMemRd at h
  split at h
  · exact ⟨_, State.refuse_eq h⟩
  · split_ifs at h
    · exact ⟨_, State.refuse_eq h⟩
    · exact ⟨_, State.finish_eq h⟩

/-- A write answers OK only when it was carried out, at a legal address (R105). -/
theorem exec_memWr_ok {b : Byte} {r : Word} (h : exec (.memWr id a b) s = .next t)
    (hok : t.result = some { st := .ok, r := r }) :
    ∃ sp, spaceOfId id = some sp ∧ a.toNat < s.size sp ∧ t = ok (s.writeByte sp a.toNat b) 0 := by
  change execMemWr id a b s = .next t at h
  unfold execMemWr at h
  split at h
  · rw [State.refuse_eq h] at hok
    simp at hok
  next sp hsp =>
    split_ifs at h with ha
    · rw [State.refuse_eq h] at hok
      simp at hok
    · exact ⟨sp, hsp, Nat.lt_of_not_le ha, State.finish_eq h⟩

end reads

/-- Settles O15: a read changes only the result word, which no read looks at; and a write that answers OK has put the
byte at a legal address, where the read finds it. -/
theorem readsReturnTheLatestWrite : Obligations.ReadsReturnTheLatestWrite := by
  refine ⟨fun s t id a h => ?_, fun s t id a b h hok => ?_⟩
  · obtain ⟨res, rfl⟩ := eq_with_result_of_exec_memRd h
    rw [exec_memRd_with_result, h]
  · obtain ⟨sp, hsp, ha, rfl⟩ := exec_memWr_ok h hok
    rw [exec_memRd_legal (s := ok (s.writeByte sp a.toNat b) 0) hsp ha, readByte_ok, State.readByte_writeByte_same]

theorem State.readByte_unwritten {s : State} {sp : Space} {a : Nat} (h : Memory.byteAt (s.mem.get sp) a = none) :
    s.readByte sp a = Config.powerOnByte s.powerUp sp a := by
  simp [State.readByte, State.unwrittenByte, h]

/-- Settles O16: the read finds nothing written at the legal address and answers its free value; the memories after
power-on list no byte. -/
theorem unwrittenByteReadsWithoutError : Obligations.UnwrittenByteReadsWithoutError := by
  refine ⟨?_, fun p k sp a => by rw [State.powerOn_get, Memory.byteAt]⟩
  rintro s a ⟨id, sp, n⟩ hx ha hnone
  obtain ⟨hsp, rfl⟩ := (mem_spaces_iff _ _ _ _).mp hx
  rw [exec_memRd_legal hsp ha, State.readByte_unwritten hnone]

end Sys2Proof.Machine
end

section
/-! SUPPORT. The bytes that no effect changes: those outside the write ranges of R56. -/

namespace Sys2Proof.Machine

open Sys2Proof.Rules

/-! ## One pixel step -/

/-- What a step on a given pixel may write depends on the configuration registers alone. -/
theorem stepMayWrite_congr {s t : State} (hw : t.regs.htW = s.regs.htW) (hh : t.regs.htH = s.regs.htH)
    (hb : t.regs.htBpl = s.regs.htBpl) (hm : t.regs.htMode = s.regs.htMode) (x y : Nat) (sp : Space) (a : Nat) :
    StepMayWrite t x y sp a ↔ StepMayWrite s x y sp a := by
  simp only [StepMayWrite, W, H, BPL, channel, hw, hh, hb, hm]

theorem stepMayWrite_of_regs_eq {s t : State} (h : t.regs = s.regs) (x y : Nat) (sp : Space) (a : Nat) :
    StepMayWrite t x y sp a ↔ StepMayWrite s x y sp a :=
  stepMayWrite_congr (by rw [h]) (by rw [h]) (by rw [h]) (by rw [h]) x y sp a

/-- Every target of the diffusion is a neighbour (R147). -/
theorem weight_ne_zero_of_target {t : Int × Nat × Nat} (ht : t ∈ diffusionTargets) {x : Nat} (y : Nat)
    (hx : 0 ≤ (x : Int) + t.1) : weight x y ((x : Int) + t.1).toNat (y + t.2.1) ≠ 0 := by
  simp only [diffusionTargets, List.mem_cons, List.not_mem_nil, or_false] at ht
  unfold weight
  obtain rfl | rfl | rfl | rfl := ht <;> dsimp only at hx ⊢ <;> split_ifs <;> omega

section pixelStep
variable {s : State} {x y : Nat} {sp : Space} {a : Nat}

/-- In a legal mode the packing writes at most the pixel's packed byte (R143, R144). -/
theorem State.pack_read_outside (hmode : s.regs.htMode = monoMode ∨ s.regs.htMode = grayMode) (nv : Nat)
    (h : ¬ StepMayWrite s x y sp a) : (s.pack x y nv).readByte sp a = s.readByte sp a := by
  have hpacked : sp ≠ .pck ∨ a ≠ y * s.regs.htBpl.toNat + x / (if s.regs.htMode = monoMode then 8 else 2) :=
    not_and_or.mp fun hw => h (.inl hw)
  unfold State.pack
  obtain hmono | hgray := hmode
  · rw [if_pos hmono] at hpacked
    rw [if_neg (by rw [hmono]; decide), State.packMono]
    split
    · exact State.readByte_writeByte_other _ _ hpacked
    · rfl
  · rw [if_neg (by rw [hgray]; decide)] at hpacked
    rw [if_pos hgray]
    exact State.readByte_writeByte_other _ _ hpacked

/-- One target of the diffusion writes at most colour bytes of a neighbour in the raster (R147). -/
theorem State.diffuseTo_read_of_not_stepMayWrite {t : Int × Nat × Nat} (ht : t ∈ diffusionTargets) (err : Int)
    (h : ¬ StepMayWrite s x y sp a) : (s.diffuseTo x y err t).readByte sp a = s.readByte sp a := by
  rw [State.diffuseTo_read, if_neg]
  rintro ⟨⟨hx0, hx, hy⟩, hsp, hlow, hhigh⟩
  refine h (.inr ⟨hsp, ((x : Int) + t.1).toNat, y + t.2.1,
    a - s.pixelAddr ((x : Int) + t.1).toNat (y + t.2.1), ?_, hy, by omega, weight_ne_zero_of_target ht y hx0, ?_⟩)
  · show _ < s.regs.htW.toNat
    omega
  · show a = s.pixelAddr _ _ + _
    omega

theorem State.diffuse_read_of_not_stepMayWrite (err : Int) (h : ¬ StepMayWrite s x y sp a) :
    (s.diffuse x y err).readByte sp a = s.readByte sp a := by
  have key : ∀ ts ⊆ diffusionTargets, ∀ t : State, t.regs = s.regs →
      (ts.foldl (State.diffuseTo x y err) t).readByte sp a = t.readByte sp a := by
    intro ts
    induction ts with
    | nil => exact fun _ _ _ => rfl
    | cons d ts ih =>
      intro hts t ht
      obtain ⟨hd, hts⟩ := List.cons_subset.mp hts
      rw [List.foldl_cons, ih hts _ ((State.diffuseTo_same ..).regs.trans ht),
        State.diffuseTo_read_of_not_stepMayWrite hd err (by rwa [stepMayWrite_of_regs_eq ht])]
  exact key _ (List.Subset.refl _) s rfl

/-- A pixel step writes at most what R56 gives the step on the sequencer's pixel. -/
theorem State.pixelStep_read_of_not_stepMayWrite (hlegal : legalConfig s.params s.regs)
    (h : ¬ StepMayWrite s (X s) (Y s) sp a) : s.pixelStep.readByte sp a = s.readByte sp a := by
  show State.readByte ((s.pack (X s) (Y s) _).diffuse (X s) (Y s) _) sp a = _
  rw [State.diffuse_read_of_not_stepMayWrite, State.pack_read_outside hlegal.1 _ h]
  rwa [stepMayWrite_of_regs_eq (State.pack_same ..).regs]

end pixelStep

/-! ## The loop of pixel steps -/

/-- `t` may be reached from `s` by pixel steps: the same configuration, no more pixels left, and in the raster as long
as the conversion runs. -/
structure RunsTo (s t : State) : Prop where
  htW    : t.regs.htW = s.regs.htW
  htH    : t.regs.htH = s.regs.htH
  htBpl  : t.regs.htBpl = s.regs.htBpl
  htMode : t.regs.htMode = s.regs.htMode
  left   : t.regs.pixelsLeft ≤ s.regs.pixelsLeft
  raster : t.regs.htState = .run → sequencerInRaster t.params t.regs

theorem RunsTo.pixelStep {s t : State} (h : RunsTo s t) (hrun : t.regs.htState = .run) : RunsTo s t.pixelStep where
  htW    := by simpa using h.htW
  htH    := by simpa using h.htH
  htBpl  := by simpa using h.htBpl
  htMode := by simpa using h.htMode
  left   := by
    obtain ⟨-, hx, hy⟩ := h.raster hrun
    rw [State.pixelStep_regs, Regs.advance_pixelsLeft _ hx hy]
    exact (Nat.sub_le _ _).trans h.left
  raster := by
    rw [State.pixelStep_regs, State.pixelStep_params]
    obtain ⟨-, hraster⟩ | ⟨hdone, -⟩ := sequencerInRaster_advance (h.raster hrun) hrun
    · exact fun _ => hraster
    · rw [hdone]
      exact fun hrun' => by cases hrun'

/-- The pixel of a later state of the loop is not before that of the first in raster order. -/
theorem RunsTo.position_le {s t : State} (h : RunsTo s t) (hrun : t.regs.htState = .run) :
    Y s * W s + X s ≤ Y t * W s + X t := by
  obtain ⟨-, hx, hy⟩ := h.raster hrun
  have hpos := t.regs.pixelsLeft_pos hx hy
  have hleft := h.left
  simp only [Regs.pixelsLeft, h.htW, h.htH] at hpos hleft
  simp only [X, Y, W]
  omega

/-- The loop of `HT.RUN` writes at most what R56 gives the steps on the pixels from the next one on. -/
theorem State.runBody_read_outside {s : State} (hraster : sequencerInRaster s.params s.regs) {sp : Space} {a : Nat}
    (h : ∀ x y, x < W s → y < H s → Y s * W s + X s ≤ y * W s + x → ¬ StepMayWrite s x y sp a) :
    s.runBody.readByte sp a = s.readByte sp a := by
  refine (State.pixelSteps_keeps (fun t => RunsTo s t ∧ t.readByte sp a = s.readByte sp a) ?_ s.regs.pixelsLeft s
    ⟨⟨rfl, rfl, rfl, rfl, Nat.le_refl _, fun _ => hraster⟩, rfl⟩).2
  intro t hrun ⟨hto, hread⟩
  obtain ⟨hlegal, hx, hy⟩ := hto.raster hrun
  have hout : ¬ StepMayWrite t (X t) (Y t) sp a := by
    rw [stepMayWrite_congr hto.htW hto.htH hto.htBpl hto.htMode]
    exact h _ _ (by rwa [hto.htW] at hx) (by rwa [hto.htH] at hy) (hto.position_le hrun)
  exact ⟨hto.pixelStep hrun, (State.pixelStep_read_of_not_stepMayWrite hlegal hout).trans hread⟩

/-- The body of `HT.CONVERT` writes at most the cleared part of PCK and what the steps of the whole raster may write. -/
theorem State.startBody_runBody_read_outside {s : State} (hlegal : legalConfig s.params s.regs) {sp : Space} {a : Nat}
    (hclear : ¬ (sp = .pck ∧ a < BPL s * H s))
    (h : ∀ x y, x < W s → y < H s → ¬ StepMayWrite s x y sp a) :
    s.startBody.runBody.readByte sp a = s.readByte sp a := by
  have hregs := s.startBody_regs
  rw [State.runBody_read_outside (State.startBody_inRaster hlegal), State.startBody_read]
  · exact if_neg hclear
  · intro x y hx hy _
    rw [stepMayWrite_congr (s := s) (by rw [hregs]) (by rw [hregs]) (by rw [hregs]) (by rw [hregs])]
    exact h x y (by simpa [W] using hx) (by simpa [H] using hy)

/-! ## Every effect -/

/-- The frame of `len` payload bytes is `len + 8` bytes of FRM (R122). -/
theorem State.withFrame_read_outside (s : State) (cmd : Byte) (len : BitVec 16) {sp : Space} {a : Nat}
    (h : ¬ (sp = .frm ∧ a < len.toNat + 8)) : (s.withFrame cmd len).readByte sp a = s.readByte sp a := by
  refine State.readByte_writeRange_outside s ?_
  rw [buildFrame_length, State.readRange_length]
  obtain hsp | ha := not_and_or.mp h
  · exact .inl hsp
  · exact .inr (.inr (by omega))

/-- Every effect leaves the bytes alone that R56 does not give its instruction to write. -/
theorem Effect.read_outside {s t : State} {i : Instr} (he : Effect s i t) {sp : Space} {a : Nat}
    (h : ¬ MayWrite s i sp a) : t.readByte sp a = s.readByte sp a := by
  cases he with
  | unchanged => rfl
  | reset => rfl
  | write => rfl
  | store b hspace ha =>
    refine State.readByte_writeByte_other s b (not_and_or.mp ?_)
    rintro ⟨rfl, rfl⟩
    exact h (.inl ⟨_, _, b, _, rfl, (mem_spaces_iff _ _ _ _).mpr ⟨hspace, rfl⟩, rfl⟩)
  | crc => rfl
  | frame cmd hi hlen => exact s.withFrame_read_outside cmd _ fun hw => h (.inr (.inl ⟨_, hi, hw⟩))
  | notification => rfl
  | start hlegal =>
    rw [State.startBody_read]
    exact if_neg fun hw => h (.inr (.inr (.inl ⟨.inl rfl, hw⟩)))
  | pixel hstate hraster =>
    exact State.pixelStep_read_of_not_stepMayWrite hraster.1 fun hw => h (.inr (.inr (.inr (.inl ⟨rfl, hw⟩))))
  | run hstate hraster =>
    exact State.runBody_read_outside hraster fun x y hx hy hle hw =>
      h (.inr (.inr (.inr (.inr (.inl ⟨rfl, x, y, hx, hy, hle, hw⟩)))))
  | convert hlegal =>
    exact State.startBody_runBody_read_outside hlegal (fun hw => h (.inr (.inr (.inl ⟨.inr rfl, hw⟩))))
      fun x y hx hy hw => h (.inr (.inr (.inr (.inr (.inr ⟨rfl, x, y, hx, hy, hw⟩)))))

/-- Settles O51: an instruction has one of the effects, and the result word is no memory byte. -/
theorem bytesChangeOnlyInTheirRanges : Obligations.BytesChangeOnlyInTheirRanges := by
  intro s t i h sp a hout
  obtain ⟨u, res, he, rfl⟩ := exec_leadsTo h
  exact he.read_outside hout

end Sys2Proof.Machine
end

section
/-! SUPPORT. The selector map and the operand table (R72, R73) as one relation, the frame headers (R75 to R77), and
that the decoder and the encoder agree on both. -/

namespace Sys2Proof

/-! ## Operation words -/

/-- R72, R73: the operation that a word with these fields stands for. A field that its format does not read is free. -/
inductive Selects : (sel sp : BitVec 8) → (a d : Word) → Instr → Prop
  | nop (sp : BitVec 8) (a d : Word) : Selects 0x00 sp a d .nop
  | sysReset (sp : BitVec 8) (a d : Word) : Selects 0x01 sp a d .sysReset
  | regRd (sp : BitVec 8) (a d : Word) : Selects 0x08 sp a d (.regRd (a.setWidth 8))
  | regWr (sp : BitVec 8) (a d : Word) : Selects 0x09 sp a d (.regWr (a.setWidth 8) d)
  | memRd (sp : BitVec 8) (a d : Word) : Selects 0x10 sp a d (.memRd sp a)
  | memWr (sp : BitVec 8) (a d : Word) : Selects 0x11 sp a d (.memWr sp a (d.setWidth 8))
  | crcClr (sp : BitVec 8) (a d : Word) : Selects 0x20 sp a d .crcClr
  | crcByte (sp : BitVec 8) (a d : Word) : Selects 0x21 sp a d (.crcByte (d.setWidth 8))
  | crcBuf (sp : BitVec 8) (a d : Word) : Selects 0x22 sp a d (.crcBuf sp a d)
  | feBuild (sp : BitVec 8) (a d : Word) : Selects 0x30 sp a d (.feBuild (a.setWidth 8) (d.setWidth 16))
  | feCheck (sp : BitVec 8) (a d : Word) : Selects 0x31 sp a d (.feCheck d)
  | fdParse (sp : BitVec 8) (a d : Word) : Selects 0x38 sp a d (.fdParse (a.setWidth 8) d)
  | fdNotify (sp : BitVec 8) (a d : Word) : Selects 0x39 sp a d (.fdNotify d)
  | htStart (sp : BitVec 8) (a d : Word) : Selects 0x40 sp a d .htStart
  | htStep (sp : BitVec 8) (a d : Word) : Selects 0x41 sp a d .htStep
  | htRun (sp : BitVec 8) (a d : Word) : Selects 0x42 sp a d .htRun
  | htConvert (sp : BitVec 8) (a d : Word) : Selects 0x43 sp a d .htConvert

section fields
variable {sel sp : BitVec 8} {a d : Word} {i : Instr}

theorem Selects.sel_mem (h : Selects sel sp a d i) : sel ∈ Rules.selectors := by
  cases h <;> decide

/-- The decoder reads the operation of the relation from a word made of its fields. -/
theorem decode_opWord (h : Selects sel sp a d i) : decode (.op (opWord sel sp a d)) = .ok i := by
  show decodeOp (opWord sel sp a d) = .ok i
  unfold decodeOp
  rw [opSel_opWord, opSp_opWord, opA_opWord, opD_opWord]
  cases h <;> rfl

theorem decode_eq_of_fields {w : OpWord} (hw : w = opWord sel sp a d) (h : Selects sel sp a d i) :
    decode (.op w) = .ok i :=
  hw ▸ decode_opWord h

/-- The encoder writes an operation's own selector. -/
theorem encode_sel (h : Selects sel sp a d i) : ∃ sp' a' d', encode i = .op (opWord sel sp' a' d') := by
  cases h <;> exact ⟨_, _, _, rfl⟩

end fields

/-- An operation word either selects an operation, which the decoder reads, or has a reserved selector (R74). -/
theorem decodeOp_selects (w : OpWord) :
    (∃ i, Selects (opSel w) (opSp w) (opA w) (opD w) i ∧ decodeOp w = .ok i) ∨
    decodeOp w = .error (.reservedSelector (opSel w)) := by
  obtain ⟨hsel, hi⟩ | ⟨hsel, hi⟩ | ⟨hsel, hi⟩ | ⟨hsel, hi⟩ | ⟨hsel, hi⟩ | ⟨hsel, hi⟩ | ⟨hsel, hi⟩ | ⟨hsel, hi⟩ |
    ⟨hsel, hi⟩ | ⟨hsel, hi⟩ | ⟨hsel, hi⟩ | ⟨hsel, hi⟩ | ⟨hsel, hi⟩ | ⟨hsel, hi⟩ | ⟨hsel, hi⟩ | ⟨hsel, hi⟩ |
    ⟨hsel, hi⟩ | herr := decodeOp_cases w
  pick_goal 18
  · exact .inr herr
  all_goals exact .inl ⟨_, by rw [hsel]; constructor, hi⟩

/-- The decoder reads no other operation from a word than the one its fields select. -/
theorem selects_of_decodeOp {w : OpWord} {i : Instr} (h : decodeOp w = .ok i) :
    Selects (opSel w) (opSp w) (opA w) (opD w) i := by
  obtain ⟨j, hj, hw⟩ | herr := decodeOp_selects w
  · rw [hw] at h
    cases h
    exact hj
  · rw [herr] at h
    cases h

theorem decode_reserved {sel : BitVec 8} (h : sel ∉ Rules.selectors) (sp : BitVec 8) (a d : Word) :
    decode (.op (opWord sel sp a d)) = .error (.reservedSelector sel) := by
  obtain ⟨i, hi, -⟩ | herr := decodeOp_selects (opWord sel sp a d)
  · rw [opSel_opWord] at hi
    exact absurd hi.sel_mem h
  · rw [opSel_opWord] at herr
    exact herr

/-! ## Frame headers -/

theorem encode_row (c : CommandId) (len : BitVec 16) : encode (c.row len) = .frame (frameHeader c.code len) := by
  cases c <;> rfl

theorem decode_frameHeader (c : CommandId) (len : BitVec 16) :
    decode (.frame (frameHeader c.code len)) = .ok (c.row len) := by
  simp [decode, decodeFrame, frameHeader, CommandId.ofCode_code, hi_append_lo]

/-- What decodes as a frame is the header of one of the ten identifiers, with its length (R75, R77). -/
theorem eq_frameHeader_of_decodeFrame {bytes : List Byte} {i : Instr} (h : decodeFrame bytes = .ok i) :
    ∃ c len, bytes = frameHeader (CommandId.code c) len ∧ i = c.row len := by
  revert h
  fun_cases decodeFrame bytes
  case case1 h0 h1 cmd h3 lo hi hfixed c hc =>
    obtain ⟨rfl, rfl, rfl⟩ := hfixed
    rintro ⟨rfl⟩
    refine ⟨c, hi ++ lo, ?_, rfl⟩
    rw [frameHeader, CommandId.code_of_ofCode hc, BitVec.extractLsb'_append_eq_right,
      BitVec.extractLsb'_append_eq_left]
  case case2 => exact nofun
  case case3 => exact nofun
  case case4 => exact nofun

/-! ## Every instruction -/

/-- What the encoder writes: a word whose fields select the operation, its operands zero-extended into their fields
(R81), or the header of the FRAME row. -/
theorem encode_cases (i : Instr) :
    (∃ sel sp a d, encode i = .op (opWord sel sp a d) ∧ Selects sel sp a d i) ∨ ∃ c len, i = CommandId.row c len := by
  cases i with
  | nop => exact .inl ⟨_, _, _, _, rfl, .nop ..⟩
  | sysReset => exact .inl ⟨_, _, _, _, rfl, .sysReset ..⟩
  | regRd rn => exact .inl ⟨_, _, _, _, rfl, by simpa using Selects.regRd 0 (rn.setWidth 32) 0⟩
  | regWr rn v => exact .inl ⟨_, _, _, _, rfl, by simpa using Selects.regWr 0 (rn.setWidth 32) v⟩
  | memRd sp a => exact .inl ⟨_, _, _, _, rfl, .memRd ..⟩
  | memWr sp a b => exact .inl ⟨_, _, _, _, rfl, by simpa using Selects.memWr sp a (b.setWidth 32)⟩
  | crcClr => exact .inl ⟨_, _, _, _, rfl, .crcClr ..⟩
  | crcByte b => exact .inl ⟨_, _, _, _, rfl, by simpa using Selects.crcByte 0 0 (b.setWidth 32)⟩
  | crcBuf sp a n => exact .inl ⟨_, _, _, _, rfl, .crcBuf ..⟩
  | feBuild cmd len =>
    exact .inl ⟨_, _, _, _, rfl, by simpa using Selects.feBuild 0 (cmd.setWidth 32) (len.setWidth 32)⟩
  | feCheck n => exact .inl ⟨_, _, _, _, rfl, .feCheck ..⟩
  | fdParse cmd n => exact .inl ⟨_, _, _, _, rfl, by simpa using Selects.fdParse 0 (cmd.setWidth 32) n⟩
  | fdNotify n => exact .inl ⟨_, _, _, _, rfl, .fdNotify ..⟩
  | htStart => exact .inl ⟨_, _, _, _, rfl, .htStart ..⟩
  | htStep => exact .inl ⟨_, _, _, _, rfl, .htStep ..⟩
  | htRun => exact .inl ⟨_, _, _, _, rfl, .htRun ..⟩
  | htConvert => exact .inl ⟨_, _, _, _, rfl, .htConvert ..⟩
  | frameGetStatus len => exact .inr ⟨.getStatus, len, rfl⟩
  | framePrintIntensity len => exact .inr ⟨.printIntensity, len, rfl⟩
  | frameQueryCount len => exact .inr ⟨.queryCount, len, rfl⟩
  | framePrint len => exact .inr ⟨.print, len, rfl⟩
  | framePrintComplete len => exact .inr ⟨.printComplete, len, rfl⟩
  | frameBatteryLevel len => exact .inr ⟨.batteryLevel, len, rfl⟩
  | frameCancelPrint len => exact .inr ⟨.cancelPrint, len, rfl⟩
  | framePrintDataFlush len => exact .inr ⟨.printDataFlush, len, rfl⟩
  | frameGetPrintType len => exact .inr ⟨.getPrintType, len, rfl⟩
  | frameGetVersion len => exact .inr ⟨.getVersion, len, rfl⟩

theorem decode_encode (i : Instr) : decode (encode i) = .ok i := by
  obtain ⟨sel, sp, a, d, henc, hsel⟩ | ⟨c, len, rfl⟩ := encode_cases i
  · rw [henc, decode_opWord hsel]
  · rw [encode_row, decode_frameHeader]

theorem encode_of_decodeFrame {bytes : List Byte} {i : Instr} (h : decodeFrame bytes = .ok i) :
    encode i = .frame bytes := by
  obtain ⟨c, len, rfl, rfl⟩ := eq_frameHeader_of_decodeFrame h
  exact encode_row c len

/-- The encoder keeps the selector of a word that decodes. -/
theorem encode_of_decodeOp {w : OpWord} {i : Instr} (h : decodeOp w = .ok i) :
    ∃ w', encode i = .op w' ∧ opSel w' = opSel w := by
  obtain ⟨sp, a, d, henc⟩ := encode_sel (selects_of_decodeOp h)
  exact ⟨_, henc, opSel_opWord ..⟩

/-- Settles O1: what is encoded decodes to itself; a frame that decodes is its row's header; and a word that decodes
shares its selector with what the encoder writes, which decodes by the first clause. -/
theorem decodeAndEncodeAgree : Obligations.DecodeAndEncodeAgree := by
  refine ⟨decode_encode, fun _ _ => encode_of_decodeFrame, fun w i h => ?_⟩
  obtain ⟨w', henc, hsel⟩ := encode_of_decodeOp h
  exact ⟨w', henc, hsel, henc ▸ decode_encode i⟩

/-- Settles O2: each word is put together from its fields, which select the operation; the three frames are headers of
their identifiers. -/
theorem writtenOutWordsDecode : Obligations.WrittenOutWordsDecode :=
  ⟨decode_eq_of_fields (by decide) (.nop 0xFF 0xFFFFFFFF 0xFFFFFFFF),
    decode_eq_of_fields (by decide) (.sysReset 0 0 0),
    decode_eq_of_fields (by decide) (.regRd 0 0x110 0),
    decode_eq_of_fields (by decide) (.regWr 0 0x10 0x10008),
    decode_eq_of_fields (by decide) (.memRd 1 7 0xAAAA),
    decode_eq_of_fields (by decide) (.memWr 2 0xFF 0x1FF),
    decode_eq_of_fields (by decide) (.crcByte 0 0 0x131),
    decode_eq_of_fields (by decide) (.crcBuf 2 7 2),
    decode_eq_of_fields (by decide) (.feBuild 0 0xA9 4),
    decode_eq_of_fields (by decide) (.fdParse 0 0x1AB 7),
    decode_eq_of_fields (by decide) (.htConvert 0 0 0),
    rfl,
    rfl,
    decode_frameHeader .print 300⟩

end Sys2Proof
end

section
/-! SUPPORT. A step on a presented item (R70, R71), the refusals of reserved encodings (R74), the result word (R70), and
the frames of the FRAME rows (log entry 2). -/

namespace Sys2Proof.Machine

open Sys2Proof.Rules

/-! ## Presented items -/

/-- Settles O5: the block accepts the first item and carries out what it decodes to. -/
theorem stepRunsTheDecodedInstruction : Obligations.StepRunsTheDecodedInstruction := by
  intro s item rest i hport hdec
  simp only [step, State.accept, hport, hdec]

theorem step_present {s : State} {item : PortItem} {i : Instr} (h : decode item = .ok i) :
    step (s.present item) = exec i s :=
  stepRunsTheDecodedInstruction (s.present item) item s.port i rfl h

theorem step_present_error {s : State} {item : PortItem} {e : DecodeError} (h : decode item = .error e) :
    step (s.present item) = s.rejected e := by
  simp only [step, State.accept_present, h]

theorem step_present_opWord {s : State} {sel sp : BitVec 8} {a d : Word} {i : Instr} (h : Selects sel sp a d i) :
    step (s.present (.op (opWord sel sp a d))) = exec i s :=
  step_present (decode_opWord h)

/-- Settles O3: each word selects its operation, whatever stands in the fields that its format does not read. -/
theorem operationWordsSelectAndIgnore : Obligations.OperationWordsSelectAndIgnore := fun _ _ _ _ =>
  ⟨step_present_opWord (.nop ..), step_present_opWord (.sysReset ..), step_present_opWord (.regRd ..),
    step_present_opWord (.regWr ..), step_present_opWord (.memRd ..), step_present_opWord (.memWr ..),
    step_present_opWord (.crcClr ..), step_present_opWord (.crcByte ..), step_present_opWord (.crcBuf ..),
    step_present_opWord (.feBuild ..), step_present_opWord (.feCheck ..), step_present_opWord (.fdParse ..),
    step_present_opWord (.fdNotify ..), step_present_opWord (.htStart ..), step_present_opWord (.htStep ..),
    step_present_opWord (.htRun ..), step_present_opWord (.htConvert ..)⟩

/-! ## Reserved encodings -/

/-- R74: the space identifiers from 5 up name no space. -/
theorem spaceOfId_reserved {sp : BitVec 8} (h : 5 ≤ sp.toNat) : spaceOfId sp = none := by
  have hsome := spaceOfId_isSome sp
  rw [decide_eq_false (show ¬ spaceAllocated sp by unfold spaceAllocated; omega)] at hsome
  simpa using hsome

/-- The numbers of R23 are those of its read-only and its read-write registers. -/
theorem registerAllocated_iff (rn : BitVec 8) : registerAllocated rn ↔ rn ∈ readOnlyNumbers ++ readWriteNumbers := by
  revert rn
  decide

/-- R74: a number that R23 does not list names no register. -/
theorem regOfNumber_reserved {rn : BitVec 8} (h : rn ∉ readOnlyNumbers ++ readWriteNumbers) : regOfNumber rn = none := by
  have hsome := regOfNumber_isSome rn
  rw [decide_eq_false (mt (registerAllocated_iff rn).mp h)] at hsome
  simpa using hsome

section refusals
variable {s : State}

theorem exec_memRd_reserved {sp : BitVec 8} (h : spaceOfId sp = none) (a : Word) :
    exec (.memRd sp a) s = .next (refused s .eSpace) := by
  show execMemRd sp a s = _
  simp only [execMemRd, h]
  rfl

theorem exec_memWr_reserved {sp : BitVec 8} (h : spaceOfId sp = none) (a : Word) (b : Byte) :
    exec (.memWr sp a b) s = .next (refused s .eSpace) := by
  show execMemWr sp a b s = _
  simp only [execMemWr, h]
  rfl

theorem exec_crcBuf_reserved {sp : BitVec 8} (h : spaceOfId sp = none) (a n : Word) :
    exec (.crcBuf sp a n) s = .next (refused s .eSpace) := by
  show execCrcBuf sp a n s = _
  simp only [execCrcBuf, h]
  rfl

theorem exec_regRd_reserved {rn : BitVec 8} (h : regOfNumber rn = none) :
    exec (.regRd rn) s = .next (refused s .eReg) := by
  show execRegRd rn s = _
  simp only [execRegRd, h]
  rfl

theorem exec_regWr_reserved {rn : BitVec 8} (h : regOfNumber rn = none) (v : Word) :
    exec (.regWr rn v) s = .next (refused s .eReg) := by
  show execRegWr rn v s = _
  simp only [execRegWr, h]
  rfl

/-- Outside RUN a read-write register takes the value (R103). -/
theorem exec_regWr_writable {r : Reg} (hrw : r.writable = true) (hstate : s.regs.htState ≠ .run) (v : Word) :
    exec (.regWr r.number v) s = .next (ok { s with regs := s.regs.write r v } 0) := by
  show execRegWr r.number v s = _
  simp only [execRegWr, regOfNumber_number, hrw, if_neg hstate]
  rfl

/-- `HT.START` refuses a configuration that is not legal (R151). -/
theorem exec_htStart_illegal (h : ¬ Legal s) : exec .htStart s = .next (refused s .eCfg) :=
  if_neg (mt (legal_iff s).mpr h)

end refusals

/-- Settles O4: a reserved selector does not decode, a reserved identifier or number names nothing, and a mode other
than the two of R140 can be written but is not legal. -/
theorem reservedEncodingsAreRefused : Obligations.ReservedEncodingsAreRefused := by
  refine ⟨rfl, fun s sel sp a d hsel => step_present_error (decode_reserved hsel sp a d), fun s sp a n b hsp => ?_,
    fun s rn v hrn => ?_, fun s v hstate hmono hgray => ?_⟩
  · have hnone := spaceOfId_reserved hsp
    exact ⟨exec_memRd_reserved hnone a, exec_memWr_reserved hnone a b, exec_crcBuf_reserved hnone a n⟩
  · have hnone := regOfNumber_reserved hrn
    exact ⟨exec_regRd_reserved hnone, exec_regWr_reserved hnone v⟩
  · refine ⟨_, exec_regWr_writable (r := .htMode) rfl hstate v, rfl, exec_htStart_illegal ?_⟩
    rintro ⟨⟨hmode, -⟩ | ⟨hmode, -⟩, -⟩
    · exact hmono hmode
    · exact hgray hmode

/-! ## The result word -/

/-- Settles O7: the status code stands above the 32 bits of `r`. -/
theorem resultWordFields : Obligations.ResultWordFields := by
  rintro ⟨st, r⟩
  refine ⟨BitVec.extractLsb'_append_eq_right, BitVec.extractLsb'_append_eq_left.trans ?_⟩
  cases st <;> rfl

/-! ## FRAME rows -/

theorem buildFrame_refused {s : State} {len : BitVec 16} (h : s.params.payloadMax < len.toNat) (cmd : Byte) :
    s.buildFrame cmd len = .next (refused s .eRange) :=
  if_pos h

/-- A payload that PAY holds is built into its frame (R122). -/
theorem buildFrame_eq_withFrame {s : State} {len : BitVec 16} (h : len.toNat ≤ s.params.payloadMax) (cmd : Byte) :
    s.buildFrame cmd len = .next (ok (s.withFrame cmd len) (BitVec.ofNat 32 (len.toNat + 8))) := by
  rw [State.buildFrame, if_neg (Nat.not_lt.mpr h)]
  simp [State.finish, State.setCrc, ok, State.withFrame]

theorem bytes_eq_readRange (s : State) (sp : Space) (a n : Nat) : bytes s sp a n = s.readRange sp a n := by
  apply List.ext_getElem?
  intro i
  by_cases hi : i < n
  · rw [State.readRange_getElem? _ _ _ _ _ hi]
    simp [bytes, hi]
  · rw [List.getElem?_eq_none (by simp [bytes]; omega), List.getElem?_eq_none (by simp; omega)]

/-- A built frame starts with its header and length bytes (R121). -/
theorem bytes_withFrame_header (s : State) (cmd : Byte) (len : BitVec 16) :
    bytes (s.withFrame cmd len) .frm 0 6 = frameHeader cmd len := by
  have hlen : BitVec.ofNat 16 (s.readRange .pay 0 len.toNat).length = len := by simp
  calc bytes (s.withFrame cmd len) .frm 0 6
      = (s.writeRange .frm 0 (Machine.buildFrame cmd (s.readRange .pay 0 len.toNat))).readRange .frm 0 6 := by
        rw [bytes_eq_readRange]
        exact State.readRange_congr fun _ _ => rfl
    _ = (Machine.buildFrame cmd (s.readRange .pay 0 len.toNat)).take 6 :=
        State.readRange_writeRange_same _ _ _ _ _ (by rw [buildFrame_length]; omega)
    _ = frameHeader cmd len := by
        rw [Machine.buildFrame, frameHead, hlen]
        rfl

/-- Settles O27: a row does what `FE.BUILD` does with its identifier, and the frame it builds starts with the header
that is its encoding. -/
theorem frameRowsBuildTheirFrames : Obligations.FrameRowsBuildTheirFrames := by
  intro row hrow s len
  rw [frameRows_eq_map] at hrow
  obtain ⟨c, -, rfl⟩ := List.mem_map.mp hrow
  refine ⟨fun hlen => ?_, fun hlen => ⟨_, ?_, buildFrame_eq_withFrame hlen c.code, ?_⟩⟩
  · exact (exec_row c len s).trans (buildFrame_refused hlen c.code)
  · exact (exec_row c len s).trans (buildFrame_eq_withFrame hlen c.code)
  · have hbytes : bytes (ok (s.withFrame c.code len) (BitVec.ofNat 32 (len.toNat + 8))) .frm 0 6 =
        frameHeader c.code len := bytes_withFrame_header s c.code len
    rw [hbytes]
    exact ⟨encode_row c len, decode_frameHeader c len⟩

end Sys2Proof.Machine
end

section
/-! SUPPORT. The system, register and memory operations (R100 to R105): what each answers, operand by operand. -/

namespace Sys2Proof.Machine

open Sys2Proof.Rules

/-! ## The system operations -/

/-- Settles O8: the word selects `NOP`, which ends at once with result 0. -/
theorem nopDoesNothing : Obligations.NopDoesNothing :=
  ⟨fun sp a d => decode_opWord (.nop sp a d), fun _ => rfl⟩

/-- The model's reset values are those that R200 lists. -/
theorem Regs.reset_eq_resetRegs : Regs.reset = resetRegs := rfl

theorem exec_sysReset (s : State) : exec .sysReset s = .next (ok { s with regs := Regs.reset } 0) := rfl

/-- Settles O9: the word selects `SYS.RESET`, which replaces the registers in whatever state they are. -/
theorem sysResetRestoresRegistersOnly : Obligations.SysResetRestoresRegistersOnly := by
  refine ⟨fun sp a d => decode_opWord (.sysReset sp a d), fun s => ?_⟩
  rw [exec_sysReset, Regs.reset_eq_resetRegs]

/-! ## Register numbers -/

/-- R23: RO are all registers but the four that can be written. -/
theorem Reg.number_mem_readOnlyNumbers (r : Reg) : r.number ∈ readOnlyNumbers ↔ r.writable = false := by
  cases r <;> decide

/-- Every number that R23 lists is that of a register. -/
theorem exists_number_eq {rn : BitVec 8} (h : rn ∈ readOnlyNumbers ++ readWriteNumbers) : ∃ r : Reg, r.number = rn := by
  have hsome : (regOfNumber rn).isSome = true := by
    rw [regOfNumber_isSome, decide_eq_true ((registerAllocated_iff rn).mpr h)]
  obtain ⟨r, hr⟩ := Option.isSome_iff_exists.mp hsome
  exact ⟨r, number_of_regOfNumber hr⟩

/-! ## Reading and writing registers -/

section registers
variable {s : State}

/-- A register is read by its number (R102). -/
theorem exec_regRd_number (r : Reg) : exec (.regRd r.number) s = .next (ok s (s.regs.read r)) := by
  show execRegRd r.number s = _
  simp only [execRegRd, regOfNumber_number]
  rfl

/-- A read-only register refuses the write, in RUN too (R103). -/
theorem exec_regWr_readOnly {r : Reg} (hro : r.writable = false) (v : Word) :
    exec (.regWr r.number v) s = .next (refused s .eRo) := by
  show execRegWr r.number v s = _
  simp only [execRegWr, regOfNumber_number, if_pos hro]
  rfl

/-- In RUN a read-write register refuses the write (R103). -/
theorem exec_regWr_running {r : Reg} (hrw : r.writable = true) (hstate : s.regs.htState = .run) (v : Word) :
    exec (.regWr r.number v) s = .next (refused s .eState) := by
  show execRegWr r.number v s = _
  simp only [execRegWr, regOfNumber_number, hrw, if_pos hstate]
  rfl

end registers

/-- Settles O11: the word selects `REG.RD`; each listed number reads its register, where the two enumerations read as
their codes, and any other number names no register. -/
theorem regRdReturnsTheRegister : Obligations.RegRdReturnsTheRegister := by
  refine ⟨fun sp a d => decode_opWord (.regRd sp a d), fun s => ?_⟩
  have hstate : exec (.regRd 0x16) s = .next (ok s (s.regs.htState.code.setWidth 32)) := exec_regRd_number .htState
  have hkind : exec (.regRd 0x20) s = .next (ok s (s.regs.nd.kind.code.setWidth 32)) := exec_regRd_number .ndKind
  refine ⟨exec_regRd_number .crcAcc, exec_regRd_number .feFlen, exec_regRd_number .htW, exec_regRd_number .htH,
    exec_regRd_number .htBpl, exec_regRd_number .htMode, exec_regRd_number .htX, exec_regRd_number .htY,
    ?htState, ?ndKind, exec_regRd_number .ndCmd, exec_regRd_number .ndLen, exec_regRd_number .ndFlags,
    exec_regRd_number .ndBatt, exec_regRd_number .ndTemp, exec_regRd_number .ndStat, exec_regRd_number .ndSdet,
    exec_regRd_number .ndVerlo, exec_regRd_number .ndVerhi, exec_regRd_number .ndPtype, exec_regRd_number .ndSucc,
    fun rn hrn => exec_regRd_reserved (regOfNumber_reserved hrn)⟩
  case htState =>
    rw [hstate]
    cases s.regs.htState <;> rfl
  case ndKind =>
    rw [hkind]
    cases s.regs.nd.kind <;> rfl

/-- Settles O12: the word selects `REG.WR`; the number names no register, a read-only one, or one of the four that
take the low bits of the value outside RUN. -/
theorem regWrWritesTheConfiguration : Obligations.RegWrWritesTheConfiguration := by
  refine ⟨fun sp a d => decode_opWord (.regWr sp a d), fun s v =>
    ⟨fun rn hrn => exec_regWr_reserved (regOfNumber_reserved hrn) v, fun rn hrn => ?readOnly,
      fun hstate rn hrn => ?running, fun hstate => ?written⟩⟩
  case readOnly =>
    obtain ⟨r, rfl⟩ := exists_number_eq (List.mem_append_left _ hrn)
    exact exec_regWr_readOnly (r.number_mem_readOnlyNumbers.mp hrn) v
  case running =>
    obtain ⟨r, rfl⟩ := exists_number_eq (List.mem_append_right _ hrn)
    exact exec_regWr_running (r.number_mem_readWriteNumbers.mp hrn) hstate v
  case written =>
    exact ⟨exec_regWr_writable (r := .htW) rfl hstate v, exec_regWr_writable (r := .htH) rfl hstate v,
      exec_regWr_writable (r := .htBpl) rfl hstate v, exec_regWr_writable (r := .htMode) rfl hstate v⟩

/-! ## Reading and writing memory -/

section memory
variable {s : State} {id : BitVec 8} {sp : Space} {a : Word}

theorem exec_memRd_outside (hsp : spaceOfId id = some sp) (ha : s.size sp ≤ a.toNat) :
    exec (.memRd id a) s = .next (refused s .eRange) := by
  show execMemRd id a s = _
  simp only [execMemRd, hsp, if_pos ha]
  rfl

theorem exec_memWr_outside (hsp : spaceOfId id = some sp) (ha : s.size sp ≤ a.toNat) (b : Byte) :
    exec (.memWr id a b) s = .next (refused s .eRange) := by
  show execMemWr id a b s = _
  simp only [execMemWr, hsp, if_pos ha]
  rfl

/-- A write to a legal address is carried out (R105). -/
theorem exec_memWr_legal (hsp : spaceOfId id = some sp) (ha : a.toNat < s.size sp) (b : Byte) :
    exec (.memWr id a b) s = .next (ok (s.writeByte sp a.toNat b) 0) := by
  show execMemWr id a b s = _
  simp only [execMemWr, hsp, if_neg (Nat.not_le.mpr ha)]
  rfl

end memory

/-- Every byte of every space after the write of one (R54). -/
theorem State.readByte_writeByte (s : State) (sp : Space) (a : Nat) (b : Byte) (sp' : Space) (a' : Nat) :
    (s.writeByte sp a b).readByte sp' a' = if sp' = sp ∧ a' = a then b else s.readByte sp' a' := by
  split
  next h =>
    obtain ⟨rfl, rfl⟩ := h
    exact State.readByte_writeByte_same ..
  next h => exact State.readByte_writeByte_other s b (not_and_or.mp h)

/-- Settles O13: the word selects `MEM.RD`; a row of R50's table is a space with its size, in which the address lies or
not. -/
theorem memRdReturnsTheByte : Obligations.MemRdReturnsTheByte := by
  refine ⟨fun sp a d => decode_opWord (.memRd sp a d), fun s a =>
    ⟨fun sp hsp => exec_memRd_reserved (spaceOfId_reserved hsp) a, ?outside, ?inside⟩⟩
  case outside =>
    rintro ⟨id, sp, n⟩ hx ha
    obtain ⟨hsp, rfl⟩ := (mem_spaces_iff _ _ _ _).mp hx
    exact exec_memRd_outside hsp ha
  case inside =>
    rintro ⟨id, sp, n⟩ hx ha
    obtain ⟨hsp, rfl⟩ := (mem_spaces_iff _ _ _ _).mp hx
    exact exec_memRd_legal hsp ha

/-- Settles O14: the word selects `MEM.WR`; within its space the write is that of one byte, and a read of any byte
afterwards is known. -/
theorem memWrWritesOneByte : Obligations.MemWrWritesOneByte := by
  refine ⟨fun sp a d => decode_opWord (.memWr sp a d), fun s a b =>
    ⟨fun sp hsp => exec_memWr_reserved (spaceOfId_reserved hsp) a b, ?outside, ?inside⟩⟩
  case outside =>
    rintro ⟨id, sp, n⟩ hx ha
    obtain ⟨hsp, rfl⟩ := (mem_spaces_iff _ _ _ _).mp hx
    exact exec_memWr_outside hsp ha b
  case inside =>
    rintro ⟨id, sp, n⟩ hx ha
    obtain ⟨hsp, rfl⟩ := (mem_spaces_iff _ _ _ _).mp hx
    refine ⟨_, exec_memWr_legal hsp ha b, rfl, rfl, ⟨rfl, rfl, rfl⟩, fun sp' a' => ?_⟩
    rw [readByte_ok, State.readByte_writeByte]

end Sys2Proof.Machine
end

section
/-! SUPPORT. The CRC unit (R110 to R117): the bit step as a shift register, as multiplication by x and on an accumulator
that grows, what the three operations answer, and the CRC of a sequence that ends with its own CRC. -/

namespace Sys2Proof.Machine

open Sys2Proof.Rules

/-! ## The bit step -/

section bitStep
variable (c : Byte)

/-- R110: the accumulator shifted up, with 0x07 XORed in when bit 7 was carried out. -/
theorem crcShift_toNat :
    (crcShift c).toNat = if c.getLsbD 7 then (c.toNat * 2 % 256) ^^^ 0x07 else c.toNat * 2 % 256 := by
  unfold crcShift
  split <;> simp [Nat.shiftLeft_eq]

/-- The bits of the shift register: each moves up by one, and bit 7 is fed back to bits 0, 1 and 2. -/
theorem getLsbD_crcShift (i : Nat) :
    (crcShift c).getLsbD i =
      ((decide (i < 8) && decide (0 < i) && c.getLsbD (i - 1)) ^^ (c.getLsbD 7 && (0x07 : Byte).getLsbD i)) := by
  unfold crcShift
  cases h : c.getLsbD 7 <;> cases i <;> simp [BitVec.getLsbD_shiftLeft]

theorem getLsbD_seven_iff : c.getLsbD 7 = true ↔ 256 ≤ 2 * c.toNat := by
  rw [← BitVec.msb_eq_getLsbD_last, BitVec.msb_eq_decide]
  simp
  omega

/-- A nine-bit value whose top bit is set loses it to the polynomial x^8 + x^2 + x + 1. -/
theorem xor_polynomial {m : Nat} (hle : 256 ≤ m) (hlt : m < 512) : m ^^^ 0b100000111 = m % 256 ^^^ 0x07 := by
  have hdiv : (m ^^^ 0b100000111) / 2 ^ 8 = 0 := by
    rw [Nat.xor_div_two_pow, show m / 2 ^ 8 = 1 by omega]
    rfl
  have hmod : (m ^^^ 0b100000111) % 2 ^ 8 = m % 256 ^^^ 0x07 := Nat.xor_mod_two_pow
  omega

/-- Multiplication by x modulo x^8 + x^2 + x + 1. -/
theorem crcShift_toNat_polynomial :
    (crcShift c).toNat = if 256 ≤ 2 * c.toNat then (2 * c.toNat) ^^^ 0b100000111 else 2 * c.toNat := by
  have hlt := c.isLt
  rw [crcShift_toNat, Nat.mul_comm]
  by_cases hcarry : 256 ≤ 2 * c.toNat
  · rw [if_pos ((getLsbD_seven_iff c).mpr hcarry), if_pos hcarry, xor_polynomial hcarry (by omega)]
  · rw [if_neg (mt (getLsbD_seven_iff c).mp hcarry), if_neg hcarry, Nat.mod_eq_of_lt (by omega)]

end bitStep

/-- Settles O17: the formula, the register's bits 0, 1, 2 and 3 to 7, and the polynomial. -/
theorem crcBitStep : Obligations.CrcBitStep := by
  intro c
  refine ⟨crcShift_toNat c, ?bit0, ?bit1, ?bit2, fun k hk => ?bits3to7, crcShift_toNat_polynomial c⟩
  case bit0 | bit1 | bit2 =>
    rw [getLsbD_crcShift]
    simp
  case bits3to7 =>
    have hfeedback : (0x07 : Byte).getLsbD (k + 3) = false := by interval_cases k <;> rfl
    rw [getLsbD_crcShift, hfeedback]
    simp
    omega

/-! ## An accumulator that grows -/

/-- Truncating to eight bits commutes with the bit step: the bits beyond bit 7 never come back down. -/
theorem crcShift_ofNat (c : Nat) : crcShift (BitVec.ofNat 8 c) = BitVec.ofNat 8 (wideShift c) := by
  have hbit : (BitVec.ofNat 8 c).getLsbD 7 = c.testBit 7 := by rw [BitVec.getLsbD_ofNat]; simp
  have hshift : BitVec.ofNat 8 c <<< 1 = BitVec.ofNat 8 (c * 2) := by
    apply BitVec.eq_of_toNat_eq
    simp [Nat.shiftLeft_eq]
  unfold crcShift wideShift
  rw [hbit, hshift]
  split
  · exact (BitVec.ofNat_xor ..).symm
  · rfl

theorem wideByte_toNat (c b : Byte) : wideByte c.toNat b.toNat = (crcByte c b).toNat := by
  have hxor : c ^^^ b = BitVec.ofNat 8 (c.toNat ^^^ b.toNat) := by simp [BitVec.ofNat_xor]
  simp only [crcByte, hxor, crcShift_ofNat, BitVec.toNat_ofNat]
  rfl

/-- Settles O22: truncation is a homomorphism from the untruncated steps to the truncated ones, step by step and, with
the truncation after each byte, byte by byte. -/
theorem lateTruncationIsNotObservable : Obligations.LateTruncationIsNotObservable := by
  refine ⟨fun c k => ?_, fun s => ?_⟩
  · rw [List.foldl_hom (BitVec.ofNat 8) (g₁ := fun c _ => wideShift c) (fun c _ => crcShift_ofNat c)]
    simp
  · rw [List.foldl_map]
    exact (List.foldl_hom BitVec.toNat (g₁ := crcByte) wideByte_toNat (init := 0)).symm

/-! ## The operations -/

/-- Settles O18: the word selects `CRC.CLR`, which ends at once with the accumulator 0. -/
theorem crcClrClearsTheAccumulator : Obligations.CrcClrClearsTheAccumulator :=
  ⟨fun sp a d => decode_opWord (.crcClr sp a d), fun _ => rfl⟩

/-- R111: absorbing a byte is eight bit steps. -/
theorem crcByte_eq_foldl (c b : Byte) : crcByte c b = (List.range 8).foldl (fun c _ => crcShift c) (c ^^^ b) := rfl

theorem exec_crcByte (s : State) (b : Byte) :
    exec (.crcByte b) s =
      .next (ok (s.setCrc (crcByte s.regs.crcAcc b)) ((crcByte s.regs.crcAcc b).setWidth 32)) := rfl

/-- Settles O19: the word selects `CRC.BYTE`, which absorbs the byte in eight bit steps. -/
theorem crcByteAbsorbsOneByte : Obligations.CrcByteAbsorbsOneByte := by
  refine ⟨fun sp a d => decode_opWord (.crcByte sp a d), fun s b => ?_⟩
  rw [exec_crcByte, crcByte_eq_foldl]
  rfl

section crcBuf
variable {s : State} {id : BitVec 8} {sp : Space} {a n : Word}

/-- A range that ends beyond its space is refused (R116). -/
theorem exec_crcBuf_outside (hsp : spaceOfId id = some sp) (hn : s.size sp < a.toNat + n.toNat) :
    exec (.crcBuf id a n) s = .next (refused s .eRange) := by
  show execCrcBuf id a n s = _
  simp only [execCrcBuf, hsp, if_pos hn]
  rfl

/-- A range within its space is absorbed from the accumulator 0 (R116). -/
theorem exec_crcBuf_legal (hsp : spaceOfId id = some sp) (hn : a.toNat + n.toNat ≤ s.size sp) :
    exec (.crcBuf id a n) s =
      .next (ok (s.setCrc (crc8 (s.readRange sp a.toNat n.toNat)))
        ((crc8 (s.readRange sp a.toNat n.toNat)).setWidth 32)) := by
  show execCrcBuf id a n s = _
  simp only [execCrcBuf, hsp, if_neg (Nat.not_lt.mpr hn)]
  rfl

end crcBuf

/-- Settles O20: the word selects `CRC.BUF`; a row of R50's table is a space with its size, which holds the range or
not. -/
theorem crcBufComputesCrc8 : Obligations.CrcBufComputesCrc8 := by
  refine ⟨fun sp a d => decode_opWord (.crcBuf sp a d), fun s a n =>
    ⟨fun sp hsp => exec_crcBuf_reserved (spaceOfId_reserved hsp) a n, ?outside, ?inside⟩⟩
  case outside =>
    rintro ⟨id, sp, size⟩ hx hn
    obtain ⟨hsp, rfl⟩ := (mem_spaces_iff _ _ _ _).mp hx
    exact exec_crcBuf_outside hsp hn
  case inside =>
    rintro ⟨id, sp, size⟩ hx hn
    obtain ⟨hsp, rfl⟩ := (mem_spaces_iff _ _ _ _).mp hx
    rw [bytes_eq_readRange]
    exact exec_crcBuf_legal hsp hn

/-! ## Consequences -/

/-- The CRC is linear over XOR, from any two accumulators (R117 (b)). -/
theorem foldl_crcByte_xor {xs ys : List Byte} (h : xs.length = ys.length) (c d : Byte) :
    (List.zipWith (· ^^^ ·) xs ys).foldl crcByte (c ^^^ d) = xs.foldl crcByte c ^^^ ys.foldl crcByte d := by
  induction xs generalizing ys c d with
  | nil =>
    cases ys with
    | nil => rfl
    | cons y ys => cases h
  | cons x xs ih =>
    cases ys with
    | nil => cases h
    | cons y ys =>
      rw [List.zipWith_cons_cons, List.foldl_cons, crcByte_xor]
      exact ih (Nat.succ.inj h) ..

/-- A sequence that ends with its own CRC has the CRC 0 (R117 (d)). -/
theorem crc8_append_crc8 (xs : List Byte) : crc8 (xs ++ [crc8 xs]) = 0 := by
  rw [crc8_append]
  exact crcByte_self _

/-- A frame up to its CRC byte is such a sequence (R121). -/
theorem crc8_take_buildFrame (cmd : Byte) (p : List Byte) : crc8 ((buildFrame cmd p).take (p.length + 7)) = 0 := by
  have htake : (buildFrame cmd p).take (p.length + 7) = frameHead cmd p ++ [crc8 (frameHead cmd p)] := by
    rw [buildFrame, List.append_cons]
    exact List.take_left' (by simp; omega)
  rw [htake, crc8_append_crc8]

/-- Settles O21: sixteen table values; linearity with both accumulators 0; a zero byte leaves the accumulator 0; the CRC
byte cancels the accumulator it meets; and the fold splits at an append. -/
theorem crc8Consequences : Obligations.Crc8Consequences := by
  refine ⟨by decide, fun s t h => foldl_crcByte_xor h 0 0, fun s => ?_, crc8_append_crc8, crc8_take_buildFrame,
    crc8_append⟩
  rw [crc8, List.foldl_cons, crcByte_self, ← crc8]

@[simp] theorem readRange_ok (s : State) (r : Word) (sp : Space) (a n : Nat) :
    (ok s r).readRange sp a n = s.readRange sp a n :=
  State.readRange_congr fun _ _ => rfl

/-- A built frame stands in FRM from address 0 (R122). -/
theorem State.readRange_withFrame (s : State) (cmd : Byte) (len : BitVec 16) {n : Nat} (hn : n ≤ len.toNat + 8) :
    (s.withFrame cmd len).readRange .frm 0 n =
      (Machine.buildFrame cmd (s.readRange .pay 0 len.toNat)).take n := by
  calc (s.withFrame cmd len).readRange .frm 0 n
      = (s.writeRange .frm 0 (Machine.buildFrame cmd (s.readRange .pay 0 len.toNat))).readRange .frm 0 n :=
        State.readRange_congr fun _ _ => rfl
    _ = (Machine.buildFrame cmd (s.readRange .pay 0 len.toNat)).take n :=
        State.readRange_writeRange_same _ _ _ _ _ (by simpa using hn)

theorem crc8_readRange_withFrame (s : State) (cmd : Byte) (len : BitVec 16) :
    crc8 ((s.withFrame cmd len).readRange .frm 0 (len.toNat + 7)) = 0 := by
  rw [s.readRange_withFrame cmd len (by omega)]
  simpa using crc8_take_buildFrame cmd (s.readRange .pay 0 len.toNat)

/-- Settles O26: `FE.BUILD` leaves the frame in FRM, which holds its first len + 7 bytes. -/
theorem crcOverABuiltFrameIsZero : Obligations.CrcOverABuiltFrameIsZero := by
  intro s t cmd len hlen hbuild
  obtain ⟨r, rfl⟩ : ∃ r, t = ok (s.withFrame cmd len) r :=
    ⟨_, Host.Outcome.next.inj (hbuild.symm.trans (buildFrame_eq_withFrame hlen cmd))⟩
  have hzero : (0 : Word).toNat = 0 := rfl
  have hn : (BitVec.ofNat 32 (len.toNat + 7)).toNat = len.toNat + 7 := by
    have := len.isLt
    rw [BitVec.toNat_ofNat, Nat.mod_eq_of_lt (by omega)]
  have hsize : (ok (s.withFrame cmd len) r).size .frm = s.params.payloadMax + 8 :=
    State.size_congr (State.writeRange_params ..) .frm
  have hfits : (0 : Word).toNat + (BitVec.ofNat 32 (len.toNat + 7)).toNat ≤
      (ok (s.withFrame cmd len) r).size .frm := by
    omega
  rw [exec_crcBuf_legal rfl hfits, hzero, hn, readRange_ok, crc8_readRange_withFrame]
  rfl

end Sys2Proof.Machine
end

section
/-! SUPPORT. The frame codec (R121 to R124): the bytes that `FE.BUILD` leaves in FRM, the result word of `FE.CHECK`, and
the check of a frame that was built. -/

namespace Sys2Proof.Machine

open Sys2Proof.Rules

/-! ## The bytes of a built frame -/

section withFrame
variable (s : State) (cmd : Byte) (len : BitVec 16)

@[simp] theorem State.withFrame_params : (s.withFrame cmd len).params = s.params := State.writeRange_params ..

theorem State.withFrame_sameOutside : SameOutside s (s.withFrame cmd len) := State.writeRange_sameOutside ..

/-- An address of FRM reads as the frame's byte there, and as before beyond the frame. -/
theorem State.withFrame_read (i : Nat) :
    (s.withFrame cmd len).readByte .frm i =
      ((Machine.buildFrame cmd (s.readRange .pay 0 len.toNat))[i]?).getD (s.readByte .frm i) := by
  refine (State.readByte_writeRange ..).trans ?_
  simp

/-- The six header and length bytes (R121). -/
theorem State.withFrame_read_header :
    (s.withFrame cmd len).readByte .frm 0 = 0x22 ∧ (s.withFrame cmd len).readByte .frm 1 = 0x21 ∧
    (s.withFrame cmd len).readByte .frm 2 = cmd ∧ (s.withFrame cmd len).readByte .frm 3 = 0x00 ∧
    (s.withFrame cmd len).readByte .frm 4 = len.extractLsb' 0 8 ∧
    (s.withFrame cmd len).readByte .frm 5 = len.extractLsb' 8 8 := by
  simpa [bytes, frameHeader, List.range_succ] using bytes_withFrame_header s cmd len

theorem State.withFrame_read_payload {i : Nat} (hi : i < len.toNat) :
    (s.withFrame cmd len).readByte .frm (6 + i) = s.readByte .pay i := by
  have hbyte : (Machine.buildFrame cmd (s.readRange .pay 0 len.toNat))[6 + i]? = some (s.readByte .pay i) := by
    rw [Machine.buildFrame, List.getElem?_append_left (by simpa using hi), frameHead,
      List.getElem?_append_right (by simp), frameHeader_length, Nat.add_sub_cancel_left,
      State.readRange_getElem? _ _ _ _ _ hi, Nat.zero_add]
  rw [State.withFrame_read, hbyte, Option.getD_some]

/-- The CRC byte follows the payload (R121). -/
theorem State.withFrame_read_crc :
    (s.withFrame cmd len).readByte .frm (6 + len.toNat) = crc8 (frameHead cmd (s.readRange .pay 0 len.toNat)) := by
  rw [State.withFrame_read, Machine.buildFrame, List.getElem?_append_right (by simp)]
  simp

/-- The terminator follows the CRC byte (R121). -/
theorem State.withFrame_read_terminator : (s.withFrame cmd len).readByte .frm (7 + len.toNat) = 0xFF := by
  have hindex : 7 + len.toNat - (frameHead cmd (s.readRange .pay 0 len.toNat)).length = 1 := by
    rw [frameHead_length, State.readRange_length]
    omega
  rw [State.withFrame_read, Machine.buildFrame, List.getElem?_append_right (by omega), hindex]
  rfl

/-- The bytes that the frame's CRC is taken over are those before its CRC byte (R121). -/
theorem State.withFrame_readRange_head :
    (s.withFrame cmd len).readRange .frm 0 (6 + len.toNat) = frameHead cmd (s.readRange .pay 0 len.toNat) := by
  rw [State.readRange_withFrame _ _ _ (by omega), Machine.buildFrame]
  exact List.take_left' (by simp)

end withFrame

/-- Settles O23: the word selects `FE.BUILD`; a payload that PAY holds is built into its frame, which is read byte by
byte. -/
theorem feBuildWritesTheFrame : Obligations.FeBuildWritesTheFrame := by
  refine ⟨fun sp a d => decode_opWord (.feBuild sp a d), fun s cmd len =>
    ⟨fun hlen => buildFrame_refused hlen cmd, fun hlen => ⟨_, buildFrame_eq_withFrame hlen cmd, rfl, ?_⟩⟩⟩
  simp only [readByte_ok, bytes_eq_readRange, readRange_ok]
  obtain ⟨h0, h1, h2, h3, h4, h5⟩ := s.withFrame_read_header cmd len
  refine ⟨⟨h0, h1, h2, h3, h4, h5⟩, fun i hi => s.withFrame_read_payload cmd len hi, ?crc,
    s.withFrame_read_terminator cmd len, ?regs, s.withFrame_sameOutside cmd len, fun sp a hout => ?outside⟩
  case crc => rw [State.withFrame_read_crc, State.withFrame_readRange_head]
  case regs =>
    rw [State.withFrame_read_crc]
    rfl
  case outside =>
    refine s.withFrame_read_outside cmd len fun ⟨hsp, ha⟩ => ?_
    obtain hne | hle := hout
    · exact hne hsp
    · omega

/-! ## The result word of the check -/

section checkResult
variable (len : BitVec 16) (cmd fl : Byte)

/-- The flag byte is the lowest one. -/
theorem getLsbD_checkResult {i : Nat} (hi : i < 8) : (checkResult len cmd fl).getLsbD i = fl.getLsbD i := by
  rw [checkResult, BitVec.getLsbD_append, if_pos hi]

/-- The flag bits of R123, from bit 0 up. -/
theorem checkResult_flags {r : Word} {hdr rsv badLen crc term : Bool}
    (hr : r = checkResult len cmd (checkFlags hdr rsv badLen crc term)) :
    r.getLsbD 0 = false ∧ r.getLsbD 1 = hdr ∧ r.getLsbD 2 = rsv ∧ r.getLsbD 3 = badLen ∧ r.getLsbD 4 = crc ∧
    r.getLsbD 5 = term ∧ r.getLsbD 6 = false ∧ r.getLsbD 7 = false := by
  subst hr
  simp only [getLsbD_checkResult, Nat.reduceLT]
  revert hdr rsv badLen crc term
  decide

theorem checkResult_identifier : (checkResult len cmd fl).extractLsb' 8 8 = cmd := by
  apply BitVec.eq_of_getLsbD_eq
  intro i hi
  rw [checkResult, BitVec.getLsbD_extractLsb', BitVec.getLsbD_append, if_neg (by omega), BitVec.getLsbD_append,
    if_pos (by omega)]
  simp [hi]

theorem checkResult_length : (checkResult len cmd fl).extractLsb' 16 16 = len := by
  apply BitVec.eq_of_getLsbD_eq
  intro i hi
  rw [checkResult, BitVec.getLsbD_extractLsb', BitVec.getLsbD_append, if_neg (by omega), BitVec.getLsbD_append,
    if_neg (by omega), show 16 + i - 8 - 8 = i by omega]
  simp [hi]

theorem checkResult_no_flag :
    checkResult len cmd 0 = (len.setWidth 32 <<< 16) ||| (cmd.setWidth 32 <<< 8) := by
  have hlen := len.isLt
  have hcmd := cmd.isLt
  have hhigh : len.toNat * 65536 % 4294967296 = len.toNat * 65536 := Nat.mod_eq_of_lt (by omega)
  have hlow : cmd.toNat * 256 % 4294967296 = cmd.toNat * 256 := Nat.mod_eq_of_lt (by omega)
  apply BitVec.eq_of_toNat_eq
  rw [checkResult, BitVec.toNat_append, BitVec.toNat_append, Nat.shiftLeft_or_distrib, ← Nat.shiftLeft_add]
  simp [Nat.shiftLeft_eq, hhigh, hlow]

end checkResult

/-! ## The check -/

/-- The two length bytes make a 16-bit number (R76). -/
theorem lengthField_lt (lo hi : Byte) : lengthField lo hi < 2 ^ 16 := by
  have hlo := lo.isLt
  have hhi := hi.isLt
  unfold lengthField
  omega

theorem lengthField_extract (len : BitVec 16) : lengthField (len.extractLsb' 0 8) (len.extractLsb' 8 8) = len.toNat := by
  have hlt := len.isLt
  simp only [lengthField, BitVec.extractLsb'_toNat, Nat.shiftRight_eq_div_pow]
  omega

/-- The result word of `FE.CHECK` for a frame of eight bytes or more; `fits` says whether its length field agrees with
the number of bytes, without which the CRC and the terminator are not looked at (R123). -/
def State.checkWord (s : State) (fits : Bool) : Word :=
  s.checkResult (checkFlags s.frmBadHeader s.frmBadReserved (!fits) (fits && s.frmBadCrc) (fits && s.frmBadTerm))

section feCheck
variable {s : State} {n : Word}

theorem exec_feCheck_outside (hn : s.params.payloadMax + 8 < n.toNat) :
    exec (.feCheck n) s = .next (refused s .eRange) :=
  if_pos hn

theorem exec_feCheck_short (hn : n.toNat ≤ s.params.payloadMax + 8) (hshort : n.toNat < 8) :
    exec (.feCheck n) s = .next (ok s shortFrameResult) :=
  (if_neg (Nat.not_lt.mpr hn)).trans (if_pos hshort)

/-- A frame of eight bytes or more is checked, and leaves its fresh CRC when its length fits (R123). -/
theorem exec_feCheck_checked (hn : n.toNat ≤ s.params.payloadMax + 8) (hlong : 8 ≤ n.toNat) {fits : Bool}
    (hfits : decide (n.toNat = s.frmLength + 8) = fits) :
    exec (.feCheck n) s =
      .next (ok (s.setCrc (if fits then s.frmCrc else s.regs.crcAcc)) (s.checkWord fits)) := by
  refine (if_neg (Nat.not_lt.mpr hn)).trans ((if_neg (Nat.not_lt.mpr hlong)).trans ?_)
  cases fits with
  | false => exact if_pos (of_decide_eq_false hfits)
  | true => exact if_neg (not_not.mpr (of_decide_eq_true hfits))

end feCheck

/-- Settles O24: the word selects `FE.CHECK`; a frame of eight bytes or more is checked, and the result word is taken
apart into its flags, its identifier and its length. -/
theorem feCheckReportsEveryFlag : Obligations.FeCheckReportsEveryFlag := by
  refine ⟨fun sp a d => decode_opWord (.feCheck sp a d), fun s n =>
    ⟨exec_feCheck_outside, exec_feCheck_short, fun hn hlong => ?_⟩⟩
  intro f len fits crc
  have hcrc : s.frmCrc = crc := congrArg crc8 (bytes_eq_readRange ..).symm
  have hexec := exec_feCheck_checked hn hlong (fits := fits) rfl
  obtain ⟨b0, b1, b2, b3, b4, b5, b6, b7⟩ := checkResult_flags _ _ (rfl : s.checkWord fits = _)
  rw [hcrc] at hexec
  rw [State.frmBadCrc, hcrc] at b4
  refine ⟨_, hexec, b0, b1, b2, b3, b4, b5, b6, b7, checkResult_identifier .., ?length⟩
  case length =>
    refine (congrArg BitVec.toNat (checkResult_length ..)).trans ?_
    rw [BitVec.toNat_ofNat]
    exact Nat.mod_eq_of_lt (lengthField_lt ..)

/-! ## The check of a built frame -/

section builtFrame
variable (s : State) (cmd : Byte) (len : BitVec 16)

theorem State.withFrame_frmLength : (s.withFrame cmd len).frmLength = len.toNat := by
  obtain ⟨-, -, -, -, h4, h5⟩ := s.withFrame_read_header cmd len
  rw [State.frmLength, h4, h5, lengthField_extract]

theorem State.withFrame_frmCrc :
    (s.withFrame cmd len).frmCrc = (s.withFrame cmd len).readByte .frm (6 + len.toNat) := by
  rw [State.frmCrc, State.withFrame_frmLength, State.withFrame_readRange_head, State.withFrame_read_crc]

/-- No flag is raised for a built frame (R124). -/
theorem State.withFrame_checkWord : (s.withFrame cmd len).checkWord true = Machine.checkResult len cmd 0 := by
  obtain ⟨h0, h1, h2, h3, -, -⟩ := s.withFrame_read_header cmd len
  have hhdr : (s.withFrame cmd len).frmBadHeader = false := by simp [State.frmBadHeader, h0, h1]
  have hrsv : (s.withFrame cmd len).frmBadReserved = false := by simp [State.frmBadReserved, h3]
  have hcrc : (s.withFrame cmd len).frmBadCrc = false := by
    simp [State.frmBadCrc, State.withFrame_frmCrc, State.withFrame_frmLength]
  have hterm : (s.withFrame cmd len).frmBadTerm = false := by
    simp [State.frmBadTerm, State.withFrame_frmLength, State.withFrame_read_terminator]
  rw [State.checkWord, State.checkResult, hhdr, hrsv, hcrc, hterm, h2, State.withFrame_frmLength,
    BitVec.ofNat_toNat, BitVec.setWidth_eq]
  rfl

end builtFrame

@[simp] theorem frmLength_ok (s : State) (r : Word) : (ok s r).frmLength = s.frmLength := rfl

@[simp] theorem checkWord_ok (s : State) (r : Word) (fits : Bool) : (ok s r).checkWord fits = s.checkWord fits := by
  have hcrc : (ok s r).frmCrc = s.frmCrc := congrArg crc8 (readRange_ok ..)
  have hbad : (ok s r).frmBadCrc = s.frmBadCrc := by
    rw [State.frmBadCrc, hcrc]
    rfl
  rw [State.checkWord, hbad]
  rfl

/-- Settles O25: the built frame's length field fits, so it is checked in full and no flag is raised. -/
theorem builtFramePassesTheCheck : Obligations.BuiltFramePassesTheCheck := by
  intro s cmd len hlen
  have hn : (BitVec.ofNat 32 (len.toNat + 8)).toNat = len.toNat + 8 := by
    have := len.isLt
    rw [BitVec.toNat_ofNat, Nat.mod_eq_of_lt (by omega)]
  obtain ⟨t, ht⟩ : ∃ t, t = ok (s.withFrame cmd len) (BitVec.ofNat 32 (len.toNat + 8)) := ⟨_, rfl⟩
  have hbuild : exec (.feBuild cmd len) s = .next t := ht ▸ buildFrame_eq_withFrame hlen cmd
  have hparams : t.params = s.params := ht ▸ s.withFrame_params cmd len
  have hlength : t.frmLength = len.toNat := ht ▸ s.withFrame_frmLength cmd len
  have hword : t.checkWord true = checkResult len cmd 0 := by rw [ht, checkWord_ok, State.withFrame_checkWord]
  have hfits : decide ((BitVec.ofNat 32 (len.toNat + 8)).toNat = t.frmLength + 8) = true := by
    rw [hn, hlength, decide_eq_true rfl]
  refine ⟨t, _, hbuild, exec_feCheck_checked (by rw [hn, hparams]; omega) (by omega) hfits, ?result,
    fun i hi => ?payload⟩
  case result =>
    rw [hword, checkResult_no_flag]
    rfl
  case payload =>
    rw [readByte_ok, State.readByte_setCrc, ht, readByte_ok, s.withFrame_read_payload cmd len hi]

end Sys2Proof.Machine
end

section
/-! SUPPORT. The notification decoder (R126, R127): the three ways a decode goes, its four cases, and the bytes that it
reads. -/

namespace Sys2Proof.Machine

open Sys2Proof.Rules

/-! ## The ways a decode goes -/

/-- R52 item 5: four appended bytes as the sum of their values at their positions. -/
theorem append_eq_sum (b0 b1 b2 b3 : Byte) :
    b3 ++ b2 ++ b1 ++ b0 =
      b0.setWidth 32 + (b1.setWidth 32 <<< 8) + (b2.setWidth 32 <<< 16) + (b3.setWidth 32 <<< 24) := by
  have h0 := b0.isLt
  have h1 := b1.isLt
  have h2 := b2.isLt
  have h3 := b3.isLt
  apply BitVec.eq_of_toNat_eq
  rw [BitVec.toNat_append, ← Nat.shiftLeft_add_eq_or_of_lt h0, BitVec.toNat_append,
    ← Nat.shiftLeft_add_eq_or_of_lt h1, BitVec.toNat_append, ← Nat.shiftLeft_add_eq_or_of_lt h2]
  simp [Nat.shiftLeft_eq]
  omega

section decodes
variable (s : State) {cmd : Byte} {n : Word}

/-- A notification with the least length of its case is taken apart (R126). -/
theorem State.decodeNtf_case (hcase : 0 < leastLength cmd) (hn : leastLength cmd ≤ n.toNat) :
    s.decodeNtf cmd n true = s.ndFields cmd (ndOf .none cmd n 0b10) :=
  if_pos ⟨rfl, hcase, hn⟩

/-- A notification that is not taken apart is RAW, with `SHORT` as the flag says (R126). -/
theorem State.decodeNtf_eq_raw {cmdv short : Bool}
    (hcase : ¬ (cmdv = true ∧ 0 < leastLength cmd ∧ leastLength cmd ≤ n.toNat))
    (hshort : decide ((0 < leastLength cmd ∧ n.toNat < leastLength cmd) ∨ cmdv = false) = short) :
    s.decodeNtf cmd n cmdv = ndOf .raw cmd n (ndFlags short cmdv) := by
  rw [State.decodeNtf, if_neg hcase, hshort]
  rfl

/-- A notification whose identifier has no case is RAW (R126). -/
theorem State.decodeNtf_raw (hcase : leastLength cmd = 0) : s.decodeNtf cmd n true = ndOf .raw cmd n 0b10 :=
  s.decodeNtf_eq_raw (by omega) (short := false) (by simp [hcase])

/-- A notification below the least length of its case is RAW and SHORT (R126). -/
theorem State.decodeNtf_short (hn : n.toNat < leastLength cmd) : s.decodeNtf cmd n true = ndOf .raw cmd n 0b11 :=
  s.decodeNtf_eq_raw (by omega) (short := true) (by simp [hn, Nat.zero_lt_of_lt hn])

/-- Without an identifier a notification is RAW and SHORT, and `CMDV` is 0 (R127). -/
theorem State.decodeNtf_unidentified : s.decodeNtf cmd n false = ndOf .raw cmd n 0b01 :=
  s.decodeNtf_eq_raw (by simp) (short := true) (by simp)

end decodes

/-- The four identifiers with a decode case have a least length (R126). -/
theorem leastLength_pos {cmd : Byte} (h : cmd ∈ [0xA1, 0xAB, 0xB1, 0xAA]) : 0 < leastLength cmd := by
  revert cmd
  decide

/-- The other identifiers have none. -/
theorem leastLength_of_not_mem {cmd : Byte} (h : cmd ∉ [0xA1, 0xAB, 0xB1, 0xAA]) : leastLength cmd = 0 := by
  revert cmd
  decide

/-! ## The operations -/

section operations
variable {s : State} {n : Word}

theorem exec_fdParse_outside (hn : s.params.notifMax < n.toNat) (cmd : Byte) :
    exec (.fdParse cmd n) s = .next (refused s .eRange) :=
  if_pos hn

theorem exec_fdNotify_outside (hn : s.params.notifMax < n.toNat) : exec (.fdNotify n) s = .next (refused s .eRange) :=
  if_pos hn

/-- What NTF holds is decoded (R126). -/
theorem exec_fdParse_inside (hn : n.toNat ≤ s.params.notifMax) (cmd : Byte) :
    exec (.fdParse cmd n) s =
      .next (decoded s (s.decodeNtf cmd n true) ((s.decodeNtf cmd n true).kind.code.setWidth 32)) :=
  if_neg (Nat.not_lt.mpr hn)

theorem exec_fdParse_of_decodeNtf (hn : n.toNat ≤ s.params.notifMax) {cmd : Byte} {nd : NdRegs}
    (hnd : s.decodeNtf cmd n true = nd) :
    exec (.fdParse cmd n) s = .next (decoded s nd (nd.kind.code.setWidth 32)) :=
  hnd ▸ exec_fdParse_inside hn cmd

/-- With a byte 2, `FD.NOTIFY` is `FD.PARSE` of it (R127); the refusal is the same. -/
theorem exec_fdNotify_identified (hlong : 3 ≤ n.toNat) :
    exec (.fdNotify n) s = exec (.fdParse (s.readByte .ntf 2) n) s := by
  show execFdNotify n s = execFdParse (s.readByte .ntf 2) n s
  rw [execFdNotify, execFdParse, if_pos hlong]

/-- Without a byte 2, `FD.NOTIFY` reads no byte (R127). -/
theorem exec_fdNotify_unidentified (hn : n.toNat ≤ s.params.notifMax) (hshort : n.toNat < 3) :
    exec (.fdNotify n) s = .next (decoded s (ndOf .raw 0x00 n 0b01) 5) := by
  show execFdNotify n s = _
  rw [execFdNotify, if_neg (Nat.not_lt.mpr hn), if_neg (Nat.not_le.mpr hshort), State.decodeNtf_unidentified]
  rfl

end operations

/-- Settles O28: the word selects `FD.PARSE`; what NTF holds is taken apart by its case, RAW without one, and RAW and
SHORT below the case's least length. -/
theorem fdParseDecodesByIdentifier : Obligations.FdParseDecodesByIdentifier := by
  refine ⟨fun sp a d => decode_opWord (.fdParse sp a d), fun s cmd n =>
    ⟨fun hn => exec_fdParse_outside hn cmd, fun hn => ?_⟩⟩
  refine ⟨?status, ?battery, ?version, ?complete, fun hraw => ?raw, fun hshort => ?short⟩
  case status | battery | complete =>
    rintro rfl hlong
    exact exec_fdParse_of_decodeNtf hn (s.decodeNtf_case (by decide) hlong)
  case version =>
    rintro rfl hlong
    simp only [← append_eq_sum]
    exact exec_fdParse_of_decodeNtf hn (s.decodeNtf_case (by decide) hlong)
  case raw => exact exec_fdParse_of_decodeNtf hn (s.decodeNtf_raw (leastLength_of_not_mem hraw))
  case short =>
    refine exec_fdParse_of_decodeNtf hn (s.decodeNtf_short ?_)
    obtain ⟨rfl, h⟩ | ⟨rfl, h⟩ | ⟨rfl, h⟩ | ⟨rfl, h⟩ := hshort <;> exact h

/-- Settles O29: the word selects `FD.NOTIFY`, which parses by byte 2 when there is one. -/
theorem fdNotifyTakesByteTwo : Obligations.FdNotifyTakesByteTwo :=
  ⟨fun sp a d => decode_opWord (.fdNotify sp a d), fun _ _ =>
    ⟨exec_fdNotify_outside,
      fun hn hlong => ⟨_, (exec_fdNotify_identified hlong).trans (exec_fdParse_inside hn _), exec_fdParse_inside hn _⟩,
      exec_fdNotify_unidentified⟩⟩

/-! ## The bytes a decode reads -/

section reads
variable {s s' : State} {n : Word}

/-- The fields of a case are made of the bytes of that case (R126). -/
theorem State.ndFields_congr {cmd : Byte} (hcmd : cmd ∈ [0xA1, 0xAB, 0xB1, 0xAA]) (hlong : leastLength cmd ≤ n.toNat)
    (h : ∀ i ∈ decodeReads cmd n.toNat, s'.readByte .ntf i = s.readByte .ntf i) (base : NdRegs) :
    s'.ndFields cmd base = s.ndFields cmd base := by
  simp only [List.mem_cons, List.not_mem_nil, or_false] at hcmd
  obtain rfl | rfl | rfl | rfl := hcmd
  · have hreads : decodeReads 0xA1 n.toNat = [9, 10, 12, 13] := by simp [decodeReads, show 14 ≤ n.toNat from hlong]
    simp [State.ndFields, hreads ▸ h]
  · have hreads : decodeReads 0xAB n.toNat = [6] := by simp [decodeReads, show 7 ≤ n.toNat from hlong]
    simp [State.ndFields, hreads ▸ h]
  · have hreads : decodeReads 0xB1 n.toNat = [6, 7, 8, 9, 10, 11, 12, 13, 14] := by
      simp [decodeReads, show 15 ≤ n.toNat from hlong]
    simp [State.ndFields, State.ntfWord, hreads ▸ h]
  · have hreads : decodeReads 0xAA n.toNat = [6] := by simp [decodeReads, show 7 ≤ n.toNat from hlong]
    simp [State.ndFields, hreads ▸ h]

/-- A decode depends on no byte but those of its case, and on none when it is RAW (R126). -/
theorem State.decodeNtf_congr {cmd : Byte}
    (h : ∀ i ∈ decodeReads cmd n.toNat, s'.readByte .ntf i = s.readByte .ntf i) :
    s'.decodeNtf cmd n true = s.decodeNtf cmd n true := by
  by_cases hcmd : cmd ∈ [0xA1, 0xAB, 0xB1, 0xAA]
  · obtain hshort | hlong := Nat.lt_or_ge n.toNat (leastLength cmd)
    · rw [s'.decodeNtf_short hshort, s.decodeNtf_short hshort]
    · have hpos := leastLength_pos hcmd
      rw [s'.decodeNtf_case hpos hlong, s.decodeNtf_case hpos hlong, State.ndFields_congr hcmd hlong h]
  · have hzero := leastLength_of_not_mem hcmd
    rw [s'.decodeNtf_raw hzero, s.decodeNtf_raw hzero]

variable (hregs : s'.regs = s.regs) (hparams : s'.params = s.params)

include hregs in
theorem decoded_regs_congr (nd : NdRegs) (k : Word) : (decoded s' nd k).regs = (decoded s nd k).regs := by
  simp only [decoded, hregs]

include hregs hparams in
/-- `FD.PARSE` answers alike in two states that agree on what it reads. -/
theorem exec_fdParse_congr (cmd : Byte)
    (h : ∀ i ∈ decodeReads cmd n.toNat, s'.readByte .ntf i = s.readByte .ntf i) :
    ∃ t t', exec (.fdParse cmd n) s = .next t ∧ exec (.fdParse cmd n) s' = .next t' ∧
      t'.regs = t.regs ∧ t'.result = t.result := by
  obtain hn | hn := Nat.lt_or_ge s.params.notifMax n.toNat
  · exact ⟨_, _, exec_fdParse_outside hn cmd, exec_fdParse_outside (hparams ▸ hn) cmd, hregs, rfl⟩
  · exact ⟨_, _, exec_fdParse_inside hn cmd,
      exec_fdParse_of_decodeNtf (hparams ▸ hn) (State.decodeNtf_congr h), decoded_regs_congr hregs .., rfl⟩

end reads

/-- Settles O30: both operations decode, and a decode depends on the bytes of its case alone; `FD.NOTIFY` parses by byte
2 or reads no byte. -/
theorem decodeReadsOnlyItsFields : Obligations.DecodeReadsOnlyItsFields := by
  intro s s' n hregs hparams
  refine ⟨exec_fdParse_congr hregs hparams, fun h => ?notify⟩
  obtain hshort | hlong := Nat.lt_or_ge n.toNat 3
  · obtain hn | hn := Nat.lt_or_ge s.params.notifMax n.toNat
    · exact ⟨_, _, exec_fdNotify_outside hn, exec_fdNotify_outside (hparams ▸ hn), hregs, rfl⟩
    · exact ⟨_, _, exec_fdNotify_unidentified hn hshort, exec_fdNotify_unidentified (hparams ▸ hn) hshort,
        decoded_regs_congr hregs .., rfl⟩
  · obtain ⟨htwo, hreads⟩ := List.forall_mem_cons.mp (h hlong)
    rw [exec_fdNotify_identified hlong, exec_fdNotify_identified hlong, htwo]
    exact exec_fdParse_congr hregs hparams _ hreads

end Sys2Proof.Machine
end

section
/-! SUPPORT. The pixel arithmetic (R142 to R147, R156): its ranges, and that the statements' terms for a pixel are the
model's. -/

namespace Sys2Proof.Machine

open Sys2Proof.Rules

/-! ## Ranges -/

theorem State.pixelAvg_le (s : State) (x y : Nat) : s.pixelAvg x y ≤ 255 := avg3_le ..

theorem brightness_le (a : Nat) : brightness a ≤ 255 := Nat.sub_le ..

/-- The clamp is the order-theoretic one (R7). -/
theorem clampByte_toNat_eq_max_min (v : Int) : ((clampByte v).toNat : Int) = max 0 (min 255 v) := by
  rw [clampByte_toNat]
  split_ifs <;> omega

section brightness
variable {b : Nat}

theorem monoLevel_cases (b : Nat) : (b < 128 ∧ monoLevel b = 0) ∨ (128 ≤ b ∧ monoLevel b = 255) := by
  unfold monoLevel
  split_ifs <;> omega

/-- R143: the monochrome levels and their errors. -/
theorem monoLevel_error_cases (b : Nat) :
    (b < 128 ∧ monoLevel b = 0 ∧ diffusionError b (monoLevel b) = b) ∨
    (128 ≤ b ∧ monoLevel b = 255 ∧ diffusionError b (monoLevel b) = (b : Int) - 255) := by
  obtain ⟨hb, hl⟩ | ⟨hb, hl⟩ := monoLevel_cases b
  · exact .inl ⟨hb, hl, by simp [diffusionError, hl]⟩
  · exact .inr ⟨hb, hl, by simp [diffusionError, hl]⟩

theorem grayLevel_le (b : Nat) : grayLevel b ≤ 255 := Nat.min_le_right ..

/-- R144, R146: the grayscale error, and when it takes its extreme values. -/
theorem grayLevel_error_range (hb : b ≤ 255) :
    -8 ≤ diffusionError b (grayLevel b) ∧ diffusionError b (grayLevel b) ≤ 7 ∧
    (diffusionError b (grayLevel b) = -8 → b % 16 = 8) ∧
    (grayLevel b = 255 → -7 ≤ diffusionError b (grayLevel b) ∧ diffusionError b (grayLevel b) ≤ 0) := by
  unfold diffusionError grayLevel
  omega

/-- R146: the level and the error of either mode. -/
theorem State.quantise_range (s : State) (hb : b ≤ 255) :
    s.quantise b ≤ 255 ∧ -127 ≤ diffusionError b (s.quantise b) ∧ diffusionError b (s.quantise b) ≤ 127 := by
  unfold State.quantise
  split
  · have hgray := grayLevel_error_range hb
    exact ⟨grayLevel_le b, by omega, by omega⟩
  · obtain ⟨hlow, hl, he⟩ | ⟨hhigh, hl, he⟩ := monoLevel_error_cases b <;> rw [he, hl] <;> omega

end brightness

/-- R147: the products, the terms, and what is left of an average before the clamp, for weights up to 7. -/
theorem diffusionTerm_range {e : Int} {w a : Nat} (hlow : -127 ≤ e) (hhigh : e ≤ 127) (hw : w ≤ 7) (ha : a ≤ 255) :
    (-889 ≤ e * (w : Int) ∧ e * (w : Int) ≤ 889) ∧ (-56 ≤ diffusionTerm e w ∧ diffusionTerm e w ≤ 55) ∧
    -55 ≤ (a : Int) - diffusionTerm e w ∧ (a : Int) - diffusionTerm e w ≤ 311 := by
  have hproduct : -889 ≤ e * (w : Int) ∧ e * (w : Int) ≤ 889 := by
    constructor <;> nlinarith
  unfold diffusionTerm
  omega

theorem weight_le_of_target {t : Int × Nat × Nat} (ht : t ∈ diffusionTargets) : t.2.2 ≤ 7 := by
  revert t
  decide

/-- Settles O36: the ranges above, put together. -/
theorem pixelArithmeticRanges : Obligations.PixelArithmeticRanges := by
  refine ⟨fun s x y => ⟨s.pixelAvg_le x y, brightness_le _⟩, fun b hb => ?levels, fun s b hb => s.quantise_range hb,
    fun e hlow hhigh t ht => ?terms, clampByte_toNat_eq_max_min⟩
  case levels => exact ⟨monoLevel_error_cases b, grayLevel_le b, grayLevel_error_range hb⟩
  case terms =>
    have hrange := fun {a : Nat} => diffusionTerm_range (a := a) hlow hhigh (weight_le_of_target ht)
    obtain ⟨⟨hp0, hp1⟩, ⟨ht0, ht1⟩, -⟩ := hrange (Nat.zero_le 255)
    exact ⟨hp0, hp1, ht0, ht1, fun s x y => (hrange (s.pixelAvg_le x y)).2.2⟩

/-! ## The statements' terms and the model's -/

theorem average_eq_pixelAvg (s : State) (x y : Nat) : average s x y = s.pixelAvg x y := rfl

theorem br_le (s : State) : br s ≤ 255 := brightness_le _

/-- In a legal mode the two quantisations are the same. -/
theorem nv_eq_quantise {s : State} (hmode : s.regs.htMode = monoMode ∨ s.regs.htMode = grayMode) :
    nv s = s.quantise (br s) := by
  obtain hmono | hgray := hmode
  · have hgray : s.regs.htMode ≠ grayMode := by rw [hmono]; decide
    rw [nv, State.quantise, if_pos (show s.regs.htMode = 0x00 from hmono), if_neg hgray]
    rfl
  · have hmono : s.regs.htMode ≠ 0x00 := by rw [hgray]; decide
    rw [nv, State.quantise, if_neg hmono, if_pos hgray]
    rfl

end Sys2Proof.Machine
end

section
/-! SUPPORT. `HT.START` and `HT.STEP` in the cases of R151 and R152, and the advance (R148). -/

namespace Sys2Proof.Machine

open Sys2Proof.Rules

/-! ## What the operations answer -/

@[simp] theorem regs_ok (s : State) (r : Word) : (ok s r).regs = s.regs := rfl

@[simp] theorem result_ok (s : State) (r : Word) : (ok s r).result = some { st := .ok, r := r } := rfl

theorem sameOutside_ok {s t : State} (h : SameOutside s t) (r : Word) : SameOutside s (ok t r) := h

section answers
variable {s : State}

theorem exec_htStart_legal (h : Legal s) : exec .htStart s = .next (ok s.startBody 0) :=
  if_pos ((legal_iff s).mp h)

theorem exec_htStep_stopped (h : s.regs.htState ≠ .run) : exec .htStep s = .next (refused s .eState) := if_pos h

theorem exec_htRun_stopped (h : s.regs.htState ≠ .run) : exec .htRun s = .next (refused s .eState) := if_pos h

theorem exec_htStep_running (h : Running s) :
    exec .htStep s = .next (ok s.pixelStep (s.pixelStep.regs.htState.code.setWidth 32)) := by
  obtain ⟨hrun, hraster⟩ := (running_iff s).mp h
  show execHtStep s = _
  rw [execHtStep, if_neg (not_not.mpr hrun), if_pos hraster]
  rfl

theorem exec_htRun_running (h : Running s) : exec .htRun s = .next (ok s.runBody 2) := by
  obtain ⟨hrun, hraster⟩ := (running_iff s).mp h
  show execHtRun s = _
  rw [execHtRun, if_neg (not_not.mpr hrun), if_pos hraster]
  rfl

end answers

/-- Settles O31: the body of `HT.START`, whose reads and registers are known, or a refusal. -/
theorem htStartBeginsAConversion : Obligations.HtStartBeginsAConversion :=
  ⟨fun sp a d => decode_opWord (.htStart sp a d), fun s => ⟨exec_htStart_illegal, fun h =>
    ⟨_, exec_htStart_legal h, result_ok .., (regs_ok ..).trans s.startBody_regs,
      sameOutside_ok s.startBody_sameOutside 0, fun sp a => (readByte_ok ..).trans (s.startBody_read sp a)⟩⟩⟩

/-! ## The advance -/

/-- In the raster the model's advance is that of R148. -/
theorem pixelStep_regs_eq_advanced {s : State} (h : Running s) : s.pixelStep.regs = advanced s := by
  obtain ⟨hrun, -, -, hy⟩ := h
  rw [State.pixelStep_regs, Regs.advance, advanced]
  unfold X W Y H at *
  by_cases hx : s.regs.htX.toNat + 1 < s.regs.htW.toNat
  · simp [hx, hrun]
  · by_cases hlast : s.regs.htY.toNat + 1 = s.regs.htH.toNat
    · simp [hx, hlast]
    · have hmore : s.regs.htY.toNat + 1 < s.regs.htH.toNat := by omega
      simp [hx, hlast, hmore, hrun]

/-- R23: the code of the state that the advance leaves. -/
theorem advanced_htState_code (s : State) :
    (advanced s).htState.code.setWidth 32 = if X s + 1 < W s ∨ Y s + 1 < H s then (1 : Word) else 2 := by
  simp only [advanced]
  split_ifs <;> rfl

/-- A pixel step leaves the memories PAY, FRM and NTF alone. -/
theorem State.pixelStep_read_other (s : State) {sp : Space} (hpix : sp ≠ .pix) (hpck : sp ≠ .pck) (a : Nat) :
    s.pixelStep.readByte sp a = s.readByte sp a :=
  s.pixelStep_read_outside sp a hpck (.inl hpix)

/-- Settles O32: a step is carried out in a running conversion only, and its result word is the code of the state that
R148 advances to. -/
theorem htStepAdvancesInRasterOrder : Obligations.HtStepAdvancesInRasterOrder := by
  refine ⟨fun sp a d => decode_opWord (.htStep sp a d), fun s => exec_htStep_stopped, fun s h => ?_⟩
  have hstep := exec_htStep_running h
  have hregs := pixelStep_regs_eq_advanced h
  rw [hregs, advanced_htState_code] at hstep
  exact ⟨_, hstep, (regs_ok ..).trans hregs, result_ok .., sameOutside_ok s.pixelStep_sameOutside _,
    fun sp a hpix hpck => (readByte_ok ..).trans (s.pixelStep_read_other hpix hpck a)⟩

end Sys2Proof.Machine
end

section
/-! SUPPORT. What one pixel step writes into PCK (R143, R144) and into PIX (R147). -/

namespace Sys2Proof.Machine

open Sys2Proof.Rules

/-! ## Packing -/

theorem ofNat_mul_two_pow (n k : Nat) : BitVec.ofNat 8 (n * 2 ^ k) = BitVec.ofNat 8 n <<< k := by
  apply BitVec.eq_of_toNat_eq
  simp [Nat.shiftLeft_eq]

theorem State.orPacked_read (s : State) (k : Nat) (v : Byte) (a : Nat) :
    (s.orPacked k v).readByte .pck a = if a = k then s.readByte .pck a ||| v else s.readByte .pck a := by
  rw [State.orPacked, State.readByte_writeByte]
  by_cases ha : a = k
  · rw [if_pos ⟨rfl, ha⟩, if_pos ha, ha]
  · rw [if_neg fun h => ha h.2, if_neg ha]

/-- R143: every packed byte after the packing of a monochrome level. -/
theorem State.pack_read_mono {s : State} (hmode : s.regs.htMode = monoMode) (x y level a : Nat) :
    (s.pack x y level).readByte .pck a =
      if a = y * BPL s + x / 8 ∧ 127 < level then s.readByte .pck a ||| ((1 : Byte) <<< (x % 8))
      else s.readByte .pck a := by
  rw [State.pack, if_neg (by rw [hmode]; decide), State.packMono]
  split
  next hlevel =>
    have hbit : BitVec.ofNat 8 (2 ^ (x % 8)) = (1 : Byte) <<< (x % 8) := by simpa using ofNat_mul_two_pow 1 (x % 8)
    rw [State.orPacked_read, hbit]
    simp only [hlevel, and_true]
    rfl
  next hlevel => rw [if_neg fun h => hlevel h.2]

/-- R144: every packed byte after the packing of a grayscale level. -/
theorem State.pack_read_gray {s : State} (hmode : s.regs.htMode = grayMode) (x y level a : Nat) :
    (s.pack x y level).readByte .pck a =
      if a = y * BPL s + x / 2 then
        s.readByte .pck a ||| (BitVec.ofNat 8 (level / 16) <<< (if x % 2 = 0 then 4 else 0))
      else s.readByte .pck a := by
  have hshift : 4 - 4 * (x % 2) = if x % 2 = 0 then 4 else 0 := by split <;> omega
  rw [State.pack, if_pos hmode, State.packGray, State.orPacked_read, ofNat_mul_two_pow, hshift]
  rfl

/-- The packed bytes after a step are those after the packing of R143's or R144's level. -/
theorem pixelStep_read_pck_of_running {s : State} (h : Running s) (a : Nat) :
    s.pixelStep.readByte .pck a = (s.pack (X s) (Y s) (nv s)).readByte .pck a := by
  rw [nv_eq_quantise ((legal_iff s).mp h.2.1).1]
  exact s.pixelStep_read_pck a

/-- Settles O33: the level is above 127 exactly when the brightness is at least 128. -/
theorem htStepPacksMonochrome : Obligations.HtStepPacksMonochrome := by
  intro s h hmode
  refine ⟨_, exec_htStep_running h, fun a => ?_⟩
  have hlevel : 127 < nv s ↔ 128 ≤ br s := by
    rw [nv, if_pos hmode]
    split_ifs <;> omega
  rw [readByte_ok, pixelStep_read_pck_of_running h, State.pack_read_mono hmode]
  simp only [hlevel]

/-- Settles O34: the level of R144, shifted to the pixel's nibble. -/
theorem htStepPacksGrayscale : Obligations.HtStepPacksGrayscale := by
  intro s h hmode
  refine ⟨_, exec_htStep_running h, fun a => ?_⟩
  have hlevel : nv s = min (16 * ((br s + 8) / 16)) 255 := if_neg (by rw [hmode]; decide)
  rw [readByte_ok, pixelStep_read_pck_of_running h, State.pack_read_gray hmode, hlevel]

/-! ## Diffusion -/

/-- Pixel (nx, ny) is the one that target `t` of pixel (x, y) names (R147). -/
def Hits (x y : Nat) (t : Int × Nat × Nat) (nx ny : Nat) : Prop := (x : Int) + t.1 = nx ∧ y + t.2.1 = ny

/-- Two targets of the same pixel have different places. -/
def Apart (t t' : Int × Nat × Nat) : Prop := ¬ (t.1 = t'.1 ∧ t.2.1 = t'.2.1)

/-- R147: "The four targets are four different pixels". -/
theorem diffusionTargets_apart : diffusionTargets.Pairwise Apart := by
  unfold Apart
  decide

theorem Apart.not_hits {t t' : Int × Nat × Nat} {x y nx ny : Nat} (h : Apart t t') (ht : Hits x y t nx ny) :
    ¬ Hits x y t' nx ny := by
  intro ht'
  unfold Apart Hits at *
  omega

/-- A pixel with a weight is the place of a target with that weight, and the other way round. -/
theorem exists_target_of_weight {x y nx ny : Nat} (h : weight x y nx ny ≠ 0) :
    ∃ t ∈ diffusionTargets, Hits x y t nx ny ∧ weight x y nx ny = (t.2.2 : Int) := by
  unfold Hits
  unfold weight at *
  split_ifs at h ⊢
  · exact ⟨(1, 0, 7), by decide, by dsimp only; omega, rfl⟩
  · exact ⟨(-1, 1, 3), by decide, by dsimp only; omega, rfl⟩
  · exact ⟨(0, 1, 5), by decide, by dsimp only; omega, rfl⟩
  · exact ⟨(1, 1, 1), by decide, by dsimp only; omega, rfl⟩
  · exact absurd rfl h

section diffusion
variable {s : State} {x y nx ny c : Nat} {err : Int}

/-- A colour byte of a pixel of the raster after one target: the clamped value at the target's place, unchanged at any
other. -/
theorem State.diffuseTo_read_pixel (t : Int × Nat × Nat) (hnx : nx < W s) (hny : ny < H s) (hc : c < 3) :
    (Hits x y t nx ny → (s.diffuseTo x y err t).readByte .pix (channel s nx ny c) =
      clampByte ((average s nx ny : Int) - diffusionTerm err t.2.2)) ∧
    (¬ Hits x y t nx ny →
      (s.diffuseTo x y err t).readByte .pix (channel s nx ny c) = s.readByte .pix (channel s nx ny c)) := by
  rw [State.diffuseTo_read]
  constructor
  · rintro ⟨hx, hy⟩
    rw [hx, hy, Int.toNat_natCast, if_pos]
    · rfl
    · exact ⟨⟨by omega, by exact_mod_cast hnx, hny⟩, rfl, Nat.le_add_right .., Nat.add_lt_add_left hc _⟩
  · intro hmiss
    rw [if_neg]
    rintro ⟨⟨hx0, hx, hy⟩, -, hlow, hhigh⟩
    unfold State.pixelAddr at hlow hhigh
    unfold channel W at *
    obtain ⟨hnx', hny'⟩ := pixel_unique hnx (x' := ((x : Int) + t.1).toNat) (y' := y + t.2.1) (by omega) (y := ny)
      (by omega)
    exact hmiss ⟨by omega, hny'.symm⟩

theorem State.foldl_diffuseTo_regs (ts : List (Int × Nat × Nat)) :
    (ts.foldl (State.diffuseTo x y err) s).regs = s.regs := by
  induction ts generalizing s with
  | nil => rfl
  | cons d ts ih => exact ih.trans (State.diffuseTo_same x y err s d).regs

theorem channel_of_regs_eq {s t : State} (h : t.regs = s.regs) (x y c : Nat) : channel t x y c = channel s x y c := by
  simp only [channel, W, h]

/-- Targets with other places leave the pixel alone. -/
theorem State.foldl_diffuseTo_read_missed {ts : List (Int × Nat × Nat)} (hmiss : ∀ t ∈ ts, ¬ Hits x y t nx ny)
    (hnx : nx < W s) (hny : ny < H s) (hc : c < 3) :
    (ts.foldl (State.diffuseTo x y err) s).readByte .pix (channel s nx ny c) =
      s.readByte .pix (channel s nx ny c) := by
  induction ts generalizing s with
  | nil => rfl
  | cons d ts ih =>
    obtain ⟨hd, hts⟩ := List.forall_mem_cons.mp hmiss
    have hregs := (State.diffuseTo_same x y err s d).regs
    have hrest := ih (s := s.diffuseTo x y err d) hts (by rwa [W, hregs]) (by rwa [H, hregs])
    rw [channel_of_regs_eq hregs] at hrest
    exact hrest.trans ((s.diffuseTo_read_pixel d hnx hny hc).2 hd)

theorem State.foldl_diffuseTo_average_missed {ts : List (Int × Nat × Nat)} (hmiss : ∀ t ∈ ts, ¬ Hits x y t nx ny)
    (hnx : nx < W s) (hny : ny < H s) : average (ts.foldl (State.diffuseTo x y err) s) nx ny = average s nx ny := by
  have hread := fun c hc => State.foldl_diffuseTo_read_missed (err := err) (c := c) hmiss hnx hny hc
  simp only [average, channel_of_regs_eq (State.foldl_diffuseTo_regs ts), hread 0 (by decide), hread 1 (by decide),
    hread 2 (by decide)]

/-- A target among others with other places writes its pixel from the average before all of them. -/
theorem State.foldl_diffuseTo_read_hit {before after : List (Int × Nat × Nat)} {t : Int × Nat × Nat}
    (hbefore : ∀ d ∈ before, ¬ Hits x y d nx ny) (hhit : Hits x y t nx ny) (hafter : ∀ d ∈ after, ¬ Hits x y d nx ny)
    (hnx : nx < W s) (hny : ny < H s) (hc : c < 3) :
    ((before ++ t :: after).foldl (State.diffuseTo x y err) s).readByte .pix (channel s nx ny c) =
      clampByte ((average s nx ny : Int) - diffusionTerm err t.2.2) := by
  have hu : (before.foldl (State.diffuseTo x y err) s).regs = s.regs := State.foldl_diffuseTo_regs before
  have hv : ((before.foldl (State.diffuseTo x y err) s).diffuseTo x y err t).regs = s.regs :=
    (State.diffuseTo_same ..).regs.trans hu
  rw [List.foldl_append, List.foldl_cons, ← channel_of_regs_eq hv,
    State.foldl_diffuseTo_read_missed hafter (by rwa [W, hv]) (by rwa [H, hv]) hc, channel_of_regs_eq hv,
    ← channel_of_regs_eq hu, (State.diffuseTo_read_pixel t (by rwa [W, hu]) (by rwa [H, hu]) hc).1 hhit,
    State.foldl_diffuseTo_average_missed hbefore hnx hny]

/-- R147: the four targets together write each neighbour from its average before the step; "the order of the four
updates does not matter". -/
theorem State.diffuse_read_hit {t : Int × Nat × Nat} (ht : t ∈ diffusionTargets) (hhit : Hits x y t nx ny)
    (hnx : nx < W s) (hny : ny < H s) (hc : c < 3) :
    (s.diffuse x y err).readByte .pix (channel s nx ny c) =
      clampByte ((average s nx ny : Int) - diffusionTerm err t.2.2) := by
  obtain ⟨before, after, hsplit⟩ := List.append_of_mem ht
  obtain ⟨-, hafter, hbefore⟩ := List.pairwise_append.mp (hsplit ▸ diffusionTargets_apart)
  rw [State.diffuse, hsplit]
  exact State.foldl_diffuseTo_read_hit
    (fun d hd hd' => (hbefore d hd t List.mem_cons_self).not_hits hd' hhit) hhit
    (fun d hd => (List.rel_of_pairwise_cons hafter hd).not_hits hhit) hnx hny hc

end diffusion

/-- The packing does not touch PIX, so the diffusion of a step works on the pixels as they were. -/
theorem pixelStep_read_neighbour {s : State} (h : Running s) {t : Int × Nat × Nat} (ht : t ∈ diffusionTargets)
    {nx ny c : Nat} (hhit : Hits (X s) (Y s) t nx ny) (hnx : nx < W s) (hny : ny < H s) (hc : c < 3) :
    s.pixelStep.readByte .pix (channel s nx ny c) =
      clampByte ((average s nx ny : Int) - diffusionTerm (err s) t.2.2) := by
  have hpacked : (s.pack (X s) (Y s) (s.quantise (br s))).regs = s.regs := (s.pack_same ..).regs
  have hread := fun a => s.pack_read_other (X s) (Y s) (s.quantise (br s)) (sp := .pix) (by decide) a
  have hdiffuse := State.diffuse_read_hit (err := diffusionError (br s) (s.quantise (br s))) ht hhit
    (s := s.pack (X s) (Y s) (s.quantise (br s))) (by rwa [W, hpacked]) (by rwa [H, hpacked]) hc
  simp only [average, channel_of_regs_eq hpacked, hread] at hdiffuse
  rw [err, nv_eq_quantise ((legal_iff s).mp h.2.1).1]
  exact hdiffuse

/-- R146: the error of the pixel to process. -/
theorem err_range {s : State} (h : Running s) : -127 ≤ err s ∧ err s ≤ 127 := by
  rw [err, nv_eq_quantise ((legal_iff s).mp h.2.1).1]
  exact (s.quantise_range (br_le s)).2

/-- Settles O35: a neighbour is hit by the one target with its weight; whatever is no neighbour's colour byte is
outside the write range of the step. -/
theorem htStepDiffusesTheError : Obligations.HtStepDiffusesTheError := by
  intro s h
  refine ⟨_, exec_htStep_running h, fun nx ny c hnx hny hc hweight => ?neighbour, fun a hout => ?other⟩
  case neighbour =>
    obtain ⟨t, ht, hhit, hw⟩ := exists_target_of_weight hweight
    have hterm : Int.fdiv (err s * weight (X s) (Y s) nx ny) 16 = diffusionTerm (err s) t.2.2 := by
      rw [hw, diffusionTerm, Int.fdiv_eq_ediv_of_nonneg _ (by decide)]
    obtain ⟨-, -, hrange⟩ := diffusionTerm_range (err_range h).1 (err_range h).2 (weight_le_of_target ht)
      (s.pixelAvg_le nx ny)
    rw [readByte_ok, pixelStep_read_neighbour h ht hhit hnx hny hc, clampByte_toNat_eq_max_min, diffused, hterm]
    exact ⟨rfl, hrange⟩
  case other =>
    rw [readByte_ok]
    refine State.pixelStep_read_of_not_stepMayWrite ((legal_iff s).mp h.2.1) ?_
    rintro (⟨hsp, -⟩ | ⟨-, nx, ny, c, hnx, hny, hc, hweight, ha⟩)
    · cases hsp
    · exact hout nx ny c hnx hny hc hweight ha

end Sys2Proof.Machine
end

section
/-! SUPPORT. `HT.RUN` and `HT.CONVERT` (R153, R154): where the loop ends, that it is `HT.STEP` repeated, and the lines
it has passed. -/

namespace Sys2Proof.Machine

open Sys2Proof.Rules

/-! ## The end of the loop -/

/-- The registers after the loop: the sequencer past the last line, everything else as before. -/
theorem State.runBody_regs {s : State} (hrun : s.regs.htState = .run) (hraster : sequencerInRaster s.params s.regs) :
    s.runBody.regs = { s.regs with htX := 0, htY := s.regs.htH, htState := .done } := by
  obtain ⟨hw, hh, hbpl, hmode, hcrc, hflen, hnd⟩ := s.runBody_config
  obtain ⟨hdone, hx, hy⟩ := State.runBody_done hrun hraster
  generalize s.runBody.regs = g at *
  obtain ⟨⟩ := g
  simp_all

/-- The loop leaves the memories PAY, FRM and NTF alone. -/
theorem State.runBody_read_other (s : State) {sp : Space} (hpix : sp ≠ .pix) (hpck : sp ≠ .pck) (a : Nat) :
    s.runBody.readByte sp a = s.readByte sp a :=
  State.pixelSteps_keeps (fun t => t.readByte sp a = s.readByte sp a)
    (fun t _ ht => (t.pixelStep_read_other hpix hpck a).trans ht) _ s rfl

/-- Settles O37: the body of `HT.RUN`, whose registers and reads are known. -/
theorem htRunFinishesTheConversion : Obligations.HtRunFinishesTheConversion := by
  intro s h
  obtain ⟨hrun, hraster⟩ := (running_iff s).mp h
  exact ⟨_, exec_htRun_running h, result_ok .., (regs_ok ..).trans (State.runBody_regs hrun hraster),
    sameOutside_ok s.runBody_sameOutside 2,
    fun sp a hpix hpck => (readByte_ok ..).trans (s.runBody_read_other hpix hpck a)⟩

/-! ## Stepping to the end -/

theorem State.pixelSteps_of_not_run {s : State} (h : s.regs.htState ≠ .run) (n : Nat) : State.pixelSteps n s = s := by
  cases n with
  | zero => rfl
  | succ n => rw [State.pixelSteps, if_neg h]

/-- In a running conversion the loop is one pixel step and the loop from there. -/
theorem State.runBody_eq_runBody_pixelStep {s : State} (h : Running s) : s.runBody = s.pixelStep.runBody := by
  obtain ⟨hrun, -, hx, hy⟩ := (running_iff s).mp h
  have hleft : s.regs.pixelsLeft = s.pixelStep.regs.pixelsLeft + 1 := by
    have hpos := s.regs.pixelsLeft_pos hx hy
    rw [State.pixelStep_regs, Regs.advance_pixelsLeft _ hx hy]
    omega
  rw [State.runBody, hleft, State.pixelSteps, if_pos hrun]
  rfl

theorem State.runBody_ok (s : State) (r : Word) :
    (ok s r).runBody = { s.runBody with result := some { st := .ok, r := r } } :=
  State.pixelSteps_with_result s _ _

/-- The result word of the state that `HT.RUN` starts from is not in the state that it answers. -/
theorem ok_runBody_ok (s : State) (r r' : Word) : ok (ok s r).runBody r' = ok s.runBody r' := by
  rw [State.runBody_ok]
  rfl

theorem running_ok_iff (s : State) (r : Word) : Running (ok s r) ↔ Running s := Iff.rfl

/-- A step of a running conversion is not the last one, or it is, and then it is all that `HT.RUN` does. -/
theorem exec_htStep_cases {s : State} (h : Running s) :
    ∃ t, exec .htStep s = .next t ∧ t.regs.pixelsLeft = s.regs.pixelsLeft - 1 ∧
      ((Running t ∧ exec .htRun t = exec .htRun s) ∨ (t.regs.pixelsLeft = 0 ∧ exec .htRun s = .next t)) := by
  obtain ⟨hrun, hraster⟩ := (running_iff s).mp h
  refine ⟨_, exec_htStep_running h, ?_, ?_⟩
  · rw [regs_ok, State.pixelStep_regs, Regs.advance_pixelsLeft _ hraster.2.1 hraster.2.2]
  rw [regs_ok, running_ok_iff, exec_htRun_running h, State.runBody_eq_runBody_pixelStep h]
  obtain ⟨hrun', hraster'⟩ | ⟨hdone, hx, hy⟩ := sequencerInRaster_advance hraster hrun
  · have hnext : Running s.pixelStep := (running_iff _).mpr ⟨by simpa using hrun', by simpa using hraster'⟩
    refine .inl ⟨hnext, ?_⟩
    rw [exec_htRun_running ((running_ok_iff ..).mpr hnext), ok_runBody_ok]
  · rw [← State.pixelStep_regs] at hdone hx hy
    have hstopped : s.pixelStep.runBody = s.pixelStep := State.pixelSteps_of_not_run (by rw [hdone]; decide) _
    refine .inr ⟨?_, ?_⟩
    · rw [Regs.pixelsLeft, hx, hy, State.pixelStep_regs, Regs.advance_htW, Regs.advance_htH, Nat.mul_comm]
      simp
    · rw [hstopped, hdone]
      rfl

/-- `HT.RUN` answers what as many steps as there are pixels left answer, from the start and from every state on the
way. -/
theorem stepTimes_pixelsLeft {n : Nat} {s : State} (h : Running s) (hn : s.regs.pixelsLeft = n) :
    ∃ t, stepTimes n s = some t ∧ exec .htRun s = .next t ∧
      ∀ k < n, ∃ u, stepTimes k s = some u ∧ Running u ∧ exec .htRun u = .next t := by
  induction n generalizing s with
  | zero =>
    obtain ⟨-, -, hx, hy⟩ := h
    exact absurd hn (s.regs.pixelsLeft_pos hx hy).ne'
  | succ n ih =>
    obtain ⟨t, hstep, hleft, ⟨ht, hrest⟩ | ⟨hnone, hlast⟩⟩ := exec_htStep_cases h
    · obtain ⟨u, hsteps, hend, hway⟩ := ih ht (by omega)
      have hstart : exec .htRun s = .next u := hrest.symm.trans hend
      refine ⟨u, by rw [stepTimes, hstep]; exact hsteps, hstart, fun k hk => ?_⟩
      cases k with
      | zero => exact ⟨s, rfl, h, hstart⟩
      | succ k =>
        rw [stepTimes, hstep]
        exact hway k (Nat.lt_of_succ_lt_succ hk)
    · obtain rfl : n = 0 := by omega
      refine ⟨t, by rw [stepTimes, hstep]; rfl, hlast, fun k hk => ?_⟩
      obtain rfl : k = 0 := by omega
      exact ⟨s, rfl, h, hlast⟩

/-- Settles O38: `HT.RUN` is as many steps as there are pixels left, of which there is at least one. -/
theorem htRunIsSteppingToTheEnd : Obligations.HtRunIsSteppingToTheEnd := by
  refine ⟨fun sp a d => decode_opWord (.htRun sp a d), fun s => exec_htRun_stopped, fun s h => ?_⟩
  obtain ⟨t, hsteps, hend, hway⟩ := stepTimes_pixelsLeft h rfl
  obtain ⟨u, hu, hresult, hregs, -⟩ := htRunFinishesTheConversion s h
  obtain rfl : t = u := by simpa [hend] using hu
  exact ⟨s.regs.pixelsLeft_pos h.2.2.1 h.2.2.2, t, hsteps, hend, hresult, by rw [hregs], hway⟩

/-! ## `HT.CONVERT` -/

section convert
variable {s : State}

theorem exec_htConvert_illegal (h : ¬ Legal s) : exec .htConvert s = .next (refused s .eCfg) :=
  if_neg (mt (legal_iff s).mpr h)

theorem exec_htConvert_legal (h : Legal s) :
    exec .htConvert s = .next (ok s.startBody.runBody (BitVec.ofNat 32 (BPL s * H s))) :=
  if_pos ((legal_iff s).mp h)

theorem State.startBody_running (h : Legal s) : Running s.startBody :=
  (running_iff _).mpr ⟨by simp, State.startBody_inRaster ((legal_iff s).mp h)⟩

end convert

/-- Settles O39: the body of `HT.RUN` does not see the result word of `HT.START`. -/
theorem htConvertIsStartThenRun : Obligations.HtConvertIsStartThenRun := by
  refine ⟨fun sp a d => decode_opWord (.htConvert sp a d), fun s => exec_htConvert_illegal, fun s h => ?_⟩
  have hrun := exec_htRun_running ((running_ok_iff s.startBody 0).mpr (State.startBody_running h))
  rw [ok_runBody_ok] at hrun
  exact ⟨_, _, exec_htStart_legal h, hrun, exec_htConvert_legal h⟩

/-! ## Passed lines -/

/-- A pixel from the next one on lies on the sequencer's line or below it. -/
theorem line_le_of_position_le {w x y x' y' : Nat} (hx' : x' < w) (h : y * w + x ≤ y' * w + x') : y ≤ y' := by
  by_contra hlt
  have hlines : (y' + 1) * w ≤ y * w := Nat.mul_le_mul_right w (by omega)
  rw [Nat.succ_mul] at hlines
  omega

/-- R152: the step on a pixel does not write the packed lines above it. -/
theorem not_stepMayWrite_above {s : State} {x y line a : Nat} (hline : line ≤ y) (ha : a < line * BPL s) :
    ¬ StepMayWrite s x y .pck a := by
  rintro (⟨-, rfl⟩ | ⟨hsp, -⟩)
  · have hle : line * BPL s ≤ y * BPL s := Nat.mul_le_mul_right _ hline
    exact absurd ha (Nat.not_lt.mpr (hle.trans (Nat.le_add_right ..)))
  · cases hsp

/-- Settles O42: the steps that are left are on pixels of the sequencer's line and of those below it. -/
theorem passedLinesAreFinal : Obligations.PassedLinesAreFinal := by
  intro s h
  obtain ⟨-, hraster⟩ := (running_iff s).mp h
  refine ⟨⟨_, exec_htStep_running h, fun a ha => ?step⟩, ⟨_, exec_htRun_running h, fun a ha => ?run⟩⟩
  case step =>
    rw [readByte_ok]
    exact State.pixelStep_read_of_not_stepMayWrite hraster.1 (not_stepMayWrite_above le_rfl ha)
  case run =>
    rw [readByte_ok]
    exact State.runBody_read_outside hraster fun x y hx _ hpos =>
      not_stepMayWrite_above (line_le_of_position_le hx hpos) ha

end Sys2Proof.Machine
end

section
/-! SUPPORT. Conversions of images of one extreme grey (R155 b to d): no step has an error to diffuse, so PIX stays, and
every step packs the same level. -/

namespace Sys2Proof.Machine

open Sys2Proof.Rules

/-! ## Uniform images -/

/-- Every colour byte of the raster is `v`. -/
def Uniform (s : State) (v : Byte) : Prop :=
  ∀ x y c, x < W s → y < H s → c < 3 → s.readByte .pix (channel s x y c) = v

/-- Black and white are levels of both modes, so such a pixel has no error (R155). -/
theorem State.quantise_extreme (s : State) {v : Byte} (hv : v = 0x00 ∨ v = 0xFF) :
    s.quantise (brightness v.toNat) = brightness v.toNat := by
  unfold State.quantise
  obtain rfl | rfl := hv <;> split <;> rfl

/-- A step on a pixel whose brightness is a level has the error 0 to diffuse. -/
theorem State.pixelStep_read_of_no_error {s : State} (h : s.quantise (br s) = br s) (sp : Space) (a : Nat) :
    s.pixelStep.readByte sp a = ((s.pack (X s) (Y s) (br s)).diffuse (X s) (Y s) 0).readByte sp a := by
  show ((s.pack (X s) (Y s) (s.quantise (br s))).diffuse (X s) (Y s)
    (diffusionError (br s) (s.quantise (br s)))).readByte sp a = _
  rw [h, diffusionError, Int.sub_self]

theorem State.startBody_read_pix (s : State) (a : Nat) : s.startBody.readByte .pix a = s.readByte .pix a :=
  (s.startBody_read .pix a).trans (if_neg fun hpck => by cases hpck.1)

section uniform
variable {s t : State} {v : Byte}

theorem Uniform.congr (h : Uniform s v) (hw : t.regs.htW = s.regs.htW) (hh : t.regs.htH = s.regs.htH)
    (hpix : ∀ a, t.readByte .pix a = s.readByte .pix a) : Uniform t v := by
  intro x y c hx hy hc
  rw [hpix, channel, W, hw]
  exact h x y c (by rwa [W, hw] at hx) (by rwa [H, hh] at hy) hc

theorem Uniform.average (h : Uniform s v) {x y : Nat} (hx : x < W s) (hy : y < H s) : average s x y = v.toNat := by
  rw [Rules.average, h x y 0 hx hy (by decide), h x y 1 hx hy (by decide), h x y 2 hx hy (by decide)]
  omega

/-- With no error a neighbour takes its own average, which is what its colour bytes hold. -/
theorem Uniform.diffuseTo_read (h : Uniform s v) (x y : Nat) (d : Int × Nat × Nat) (sp : Space) (a : Nat) :
    (s.diffuseTo x y 0 d).readByte sp a = s.readByte sp a := by
  rw [State.diffuseTo_read]
  split
  next hin =>
    obtain ⟨⟨hx0, hx, hy⟩, rfl, hlow, hhigh⟩ := hin
    have hx' : ((x : Int) + d.1).toNat < W s := by
      unfold W
      omega
    have hold := h _ _ (a - s.pixelAddr ((x : Int) + d.1).toNat (y + d.2.1)) hx' hy (by omega)
    rw [show channel s _ _ (a - s.pixelAddr _ _) = a from Nat.add_sub_cancel' hlow] at hold
    have hzero : diffusionTerm 0 d.2.2 = 0 := by simp [diffusionTerm]
    rw [← average_eq_pixelAvg, h.average hx' hy, hzero, Int.sub_zero, clampByte_of_byte, hold]
  next => rfl

theorem Uniform.foldl_diffuseTo_read (h : Uniform s v) (x y : Nat) (ts : List (Int × Nat × Nat)) (sp : Space)
    (a : Nat) : (ts.foldl (State.diffuseTo x y 0) s).readByte sp a = s.readByte sp a := by
  induction ts generalizing s with
  | nil => rfl
  | cons d ts ih =>
    have hregs := (State.diffuseTo_same x y 0 s d).regs
    have hnext := h.congr (by rw [hregs]) (by rw [hregs]) (h.diffuseTo_read x y d .pix)
    exact (ih hnext).trans (h.diffuseTo_read x y d sp a)

/-- The step on a pixel of a uniform image of an extreme grey does no more than pack the pixel's brightness. -/
theorem Uniform.pixelStep_read (h : Uniform s v) (hv : v = 0x00 ∨ v = 0xFF) (hx : X s < W s) (hy : Y s < H s)
    (sp : Space) (a : Nat) :
    s.pixelStep.readByte sp a = (s.pack (X s) (Y s) (brightness v.toNat)).readByte sp a := by
  have hbr : br s = brightness v.toNat := congrArg brightness (h.average hx hy)
  have hpacked : Uniform (s.pack (X s) (Y s) (brightness v.toNat)) v :=
    h.congr (by rw [(State.pack_same ..).regs]) (by rw [(State.pack_same ..).regs])
      fun a => s.pack_read_other _ _ _ (by decide) a
  rw [State.pixelStep_read_of_no_error (by rw [hbr, s.quantise_extreme hv]), hbr]
  exact hpacked.foldl_diffuseTo_read _ _ _ sp a

/-- The loop over a uniform image of an extreme grey leaves PIX alone, and keeps whatever the packing of that grey's
brightness keeps. -/
theorem Uniform.runBody (h : Uniform s v) (hv : v = 0x00 ∨ v = 0xFF) (hraster : sequencerInRaster s.params s.regs)
    {P : State → Prop} (hstart : P s)
    (hstep : ∀ t, RunsTo s t → t.regs.htState = .run →
      (∀ a, t.pixelStep.readByte .pck a = (t.pack (X t) (Y t) (brightness v.toNat)).readByte .pck a) →
      P t → P t.pixelStep) :
    P s.runBody ∧ ∀ a, s.runBody.readByte .pix a = s.readByte .pix a := by
  refine (State.pixelSteps_keeps
    (fun t => RunsTo s t ∧ P t ∧ ∀ a, t.readByte .pix a = s.readByte .pix a) ?_ s.regs.pixelsLeft s
    ⟨⟨rfl, rfl, rfl, rfl, Nat.le_refl _, fun _ => hraster⟩, hstart, fun _ => rfl⟩).2
  intro t hrun ⟨hto, hP, hpix⟩
  obtain ⟨-, hx, hy⟩ := hto.raster hrun
  have hread := (h.congr hto.htW hto.htH hpix).pixelStep_read hv hx hy
  exact ⟨hto.pixelStep hrun, hstep t hto hrun (hread .pck) hP,
    fun a => (hread .pix a).trans ((t.pack_read_other _ _ _ (by decide) a).trans (hpix a))⟩

theorem Uniform.startBody (h : Uniform s v) : Uniform s.startBody v :=
  h.congr (by simp) (by simp) s.startBody_read_pix

end uniform

/-! ## White -/

/-- Packing the level 0 changes nothing. -/
theorem State.pack_zero_read {s : State} (hmode : s.regs.htMode = monoMode ∨ s.regs.htMode = grayMode) (x y a : Nat) :
    (s.pack x y 0).readByte .pck a = s.readByte .pck a := by
  obtain hmono | hgray := hmode
  · rw [State.pack_read_mono hmono, if_neg fun hlevel => absurd hlevel.2 (by decide)]
  · rw [State.pack_read_gray hgray]
    simp

/-- Settles O40: the cleared bytes stay, since every step packs the level 0. -/
theorem whiteImageConvertsToZeros : Obligations.WhiteImageConvertsToZeros := by
  intro s h himage
  have hwhite : Uniform s.startBody 0xFF := Uniform.startBody himage
  have hraster := State.startBody_inRaster ((legal_iff s).mp h)
  obtain ⟨hpck, hpix⟩ := hwhite.runBody (.inr rfl) hraster
    (P := fun t => ∀ a, t.readByte .pck a = s.startBody.readByte .pck a) (fun _ => rfl) fun t hto hrun hread ht a =>
      (hread a).trans ((State.pack_zero_read (hto.raster hrun).1.1 _ _ a).trans (ht a))
  refine ⟨_, exec_htConvert_legal h, fun a ha => ?_, fun a => ?_⟩
  · rw [readByte_ok, hpck, State.startBody_read, if_pos ⟨rfl, ha⟩]
  · rw [readByte_ok, hpix, State.startBody_read_pix]

/-! ## Black -/

/-- The number in raster order of the pixel that bit `i` of packed byte `a` belongs to (R143, R144). -/
def bitPixel (g : Regs) (a i : Nat) : Nat :=
  if g.htMode = monoMode then 8 * a + i else 2 * a + if i < 4 then 1 else 0

theorem bitPixel_mono {g : Regs} (h : g.htMode = monoMode) (a i : Nat) : bitPixel g a i = 8 * a + i := if_pos h

theorem bitPixel_gray {g : Regs} (h : g.htMode = grayMode) (a i : Nat) :
    bitPixel g a i = 2 * a + if i < 4 then 1 else 0 :=
  if_neg (by rw [h]; decide)

theorem getLsbD_one_shiftLeft : ∀ k < 8, ∀ i < 8, ((1 : Byte) <<< k).getLsbD i = decide (i = k) := by decide

theorem getLsbD_nibble_shiftLeft : ∀ r < 2, ∀ i < 8,
    (BitVec.ofNat 8 (255 / 16) <<< (if r = 0 then 4 else 0)).getLsbD i = decide (r = if i < 4 then 1 else 0) := by
  decide

section legal
variable {s : State} (h : legalConfig s.params s.regs)
include h

theorem width_mono (hmode : s.regs.htMode = monoMode) : W s = 8 * BPL s := by
  obtain ⟨-, -, hmono, -⟩ := h
  have hcols := hmono hmode
  unfold W BPL
  omega

theorem width_gray (hmode : s.regs.htMode = grayMode) : W s = 2 * BPL s := by
  obtain ⟨-, -, -, hgray, -⟩ := h
  have hcols := hgray hmode
  unfold W BPL
  omega

/-- Packing the level 255 sets the bits of the pixel and no others. -/
theorem State.pack_full_getLsbD (x y a : Nat) {i : Nat} (hi : i < 8) :
    ((s.pack x y 255).readByte .pck a).getLsbD i =
      ((s.readByte .pck a).getLsbD i || decide (bitPixel s.regs a i = y * W s + x)) := by
  obtain hmono | hgray := h.1
  · rw [State.pack_read_mono hmono, bitPixel_mono hmono, width_mono h hmono, Nat.mul_left_comm]
    split
    next hbyte =>
      rw [BitVec.getLsbD_or, getLsbD_one_shiftLeft _ (Nat.mod_lt _ (by decide)) _ hi]
      congr 1
      exact decide_eq_decide.mpr (by omega)
    next hbyte => rw [decide_eq_false (by omega), Bool.or_false]
  · rw [State.pack_read_gray hgray, bitPixel_gray hgray, width_gray h hgray, Nat.mul_left_comm]
    split
    next hbyte =>
      rw [BitVec.getLsbD_or, getLsbD_nibble_shiftLeft _ (Nat.mod_lt _ (by decide)) _ hi]
      congr 1
      exact decide_eq_decide.mpr (by split <;> omega)
    next hbyte => rw [decide_eq_false (by split <;> omega), Bool.or_false]

/-- The bits of the output range belong to pixels of the raster. -/
theorem bitPixel_lt {a i : Nat} (ha : a < BPL s * H s) (hi : i < 8) : bitPixel s.regs a i < H s * W s := by
  rw [Nat.mul_comm] at ha
  obtain hmono | hgray := h.1
  · rw [bitPixel_mono hmono, width_mono h hmono, Nat.mul_left_comm]
    omega
  · rw [bitPixel_gray hgray, width_gray h hgray, Nat.mul_left_comm]
    split <;> omega

end legal

/-- One step moves the sequencer on by one pixel in raster order (R148). -/
theorem State.pixelStep_position {s : State} (hx : X s < W s) (hy : Y s < H s) :
    Y s.pixelStep * W s + X s.pixelStep = Y s * W s + X s + 1 := by
  unfold X Y W H at *
  rw [State.pixelStep_regs]
  obtain ⟨-, hx', hy', -⟩ | ⟨hend, -, hx', hy', -⟩ | ⟨hend, hlast, hx', hy', -⟩ := s.regs.advance_cases hx hy
  · rw [hx', hy', Nat.add_assoc]
  · rw [hx', hy', Nat.succ_mul, Nat.add_assoc _ _ 1, hend]
    rfl
  · rw [hx', hy', ← hlast, Nat.succ_mul, Nat.add_assoc _ _ 1, hend]
    rfl

/-- The packed bits of the pixels before the sequencer's are set. -/
def PackedFull (t : State) : Prop :=
  ∀ a, ∀ i < 8, bitPixel t.regs a i < Y t * W t + X t → (t.readByte .pck a).getLsbD i = true

theorem PackedFull.pixelStep {t : State} (h : PackedFull t) (hraster : sequencerInRaster t.params t.regs)
    (hread : ∀ a, t.pixelStep.readByte .pck a = (t.pack (X t) (Y t) 255).readByte .pck a) : PackedFull t.pixelStep := by
  obtain ⟨hlegal, hx, hy⟩ := hraster
  have hw : W t.pixelStep = W t := by simp [W]
  have hbit : ∀ a i, bitPixel t.pixelStep.regs a i = bitPixel t.regs a i := fun a i => by simp [bitPixel]
  intro a i hi hpos
  rw [hbit, hw, State.pixelStep_position hx hy] at hpos
  rw [hread, State.pack_full_getLsbD hlegal _ _ _ hi, Bool.or_eq_true, decide_eq_true_iff]
  obtain hbefore | hnow := Nat.lt_succ_iff_lt_or_eq.mp hpos
  · exact .inl (h a i hi hbefore)
  · exact .inr hnow

theorem eq_full_of_getLsbD {b : Byte} (h : ∀ i < 8, b.getLsbD i = true) : b = 0xFF := by
  apply BitVec.eq_of_getLsbD_eq
  intro i hi
  rw [h i hi]
  exact (show ∀ i < 8, true = (0xFF : Byte).getLsbD i by decide) i hi

/-- Settles O41: every step packs the level 255, so behind the sequencer all bits are set, and at the end all are. -/
theorem blackImageConvertsToOnes : Obligations.BlackImageConvertsToOnes := by
  intro s h himage
  have hblack : Uniform s.startBody 0x00 := Uniform.startBody himage
  have hlegal := (legal_iff s).mp h
  have hraster := State.startBody_inRaster hlegal
  have hstart : PackedFull s.startBody := by
    intro a i _ hpos
    simp [X, Y] at hpos
  obtain ⟨hpck, hpix⟩ := hblack.runBody (.inl rfl) hraster hstart fun t hto hrun hread ht =>
    ht.pixelStep (hto.raster hrun) hread
  refine ⟨_, exec_htConvert_legal h, fun a ha => eq_full_of_getLsbD fun i hi => ?_, fun a => ?_⟩
  · have hend := State.runBody_regs (by simp) hraster
    rw [readByte_ok]
    refine hpck a i hi ?_
    simpa [hend, X, Y, W, H, bitPixel] using bitPixel_lt hlegal ha hi
  · rw [readByte_ok, hpix, State.startBody_read_pix]

end Sys2Proof.Machine
end

section
/-! SUPPORT. Every operation word is answered where the invariant holds (R160). -/

namespace Sys2Proof.Machine

open Sys2Proof.Rules

/-- The invariant excludes the one case in which an instruction answers no next state. -/
theorem State.Inv.not_stepsOutsideRaster {s : State} (h : s.Inv) (i : Instr) : ¬ StepsOutsideRaster s i := by
  rintro ⟨-, hrun, hout⟩
  exact hout (h.runInRaster hrun)

/-- R160 for instructions: each is carried out or refused with a result word. -/
theorem State.Inv.exec_answers {s : State} (h : s.Inv) (i : Instr) :
    ∃ t res, exec i s = .next t ∧ t.result = some res ∧ SameOutside s t := by
  obtain ⟨t, ht⟩ := exec_next (h.not_stepsOutsideRaster i)
  obtain ⟨u, res, he, rfl⟩ := exec_leadsTo ht
  exact ⟨_, res, ht, rfl, he.sameOutside⟩

/-- R74: a word with a reserved selector is refused with `E_OP`, in every state. -/
theorem step_present_reservedSelector {s : State} {w : OpWord} {sel : BitVec 8}
    (h : decodeOp w = .error (.reservedSelector sel)) : step (s.present (.op w)) = .next (refused s .eOp) :=
  step_present_error (item := .op w) h

/-- Settles O45: a word selects an instruction, which the invariant lets answer, or has a reserved selector. -/
theorem everyOperationWordIsAnswered : Obligations.EveryOperationWordIsAnswered := by
  intro s w hinv
  obtain ⟨i, -, hdec⟩ | hres := decodeOp_selects w
  · rw [step_present (item := .op w) hdec]
    exact hinv.exec_answers i
  · exact ⟨_, _, step_present_reservedSelector hres, rfl, sameOutside_refl s⟩

end Sys2Proof.Machine
end

section
/-! SUPPORT. The status of every instruction (R180 to R183): each is carried out or refused as R182 and R183 say, and a
refusal changes nothing but the result word. -/

namespace Sys2Proof.Machine

open Sys2Proof.Rules

/-! ## Carried out or refused -/

/-- What an instruction answers from `s` has this status: it was carried out, or it was refused and only the result
word changed (R181). -/
inductive AnswersWith (s : State) (answer : Answer) : Status → Prop
  | carriedOut {u : State} {r : Word} (h : answer = .next (ok u r)) : AnswersWith s answer .ok
  | turnedDown {code : Status} (hcode : code ≠ .ok) (h : answer = .next (refused s code)) : AnswersWith s answer code

theorem AnswersWith.exists_result {s : State} {answer : Answer} {st : Status} (h : AnswersWith s answer st) :
    ∃ t r, answer = .next t ∧ t.result = some { st := st, r := r } ∧ (st ≠ .ok → r = 0 ∧ t = refused s st) := by
  cases h with
  | carriedOut h => exact ⟨_, _, h, rfl, fun hne => absurd rfl hne⟩
  | turnedDown _ h => exact ⟨_, _, h, rfl, fun _ => ⟨rfl, rfl⟩⟩

/-! ## Memory spaces -/

/-- A space identifier that is not reserved names a space (R50). -/
theorem exists_spaceOfId {id : BitVec 8} (h : ¬ 4 < id.toNat) : ∃ sp, spaceOfId id = some sp := by
  have hsome := spaceOfId_isSome id
  rw [decide_eq_true (Nat.le_of_not_lt h : spaceAllocated id)] at hsome
  exact Option.isSome_iff_exists.mp hsome

/-- R50's table has one size for the space an identifier names. -/
theorem exists_mem_spaces_iff {p : Params} {id : BitVec 8} {sp : Space} (hsp : spaceOfId id = some sp)
    (TooShort : Nat → Prop) : (∃ x ∈ spaces p, x.1 = id ∧ TooShort x.2.2) ↔ TooShort (spaceSize p sp) := by
  constructor
  · rintro ⟨⟨_, sp', n⟩, hx, rfl, hshort⟩
    obtain ⟨hsp', rfl⟩ := (mem_spaces_iff _ _ _ _).mp hx
    obtain rfl : sp' = sp := Option.some.inj (hsp'.symm.trans hsp)
    exact hshort
  · exact fun hshort => ⟨(id, sp, _), (mem_spaces_iff _ _ _ _).mpr ⟨hsp, rfl⟩, rfl, hshort⟩

section operations
variable {s : State}

/-- The causes of an operation on a space in their order (R183): no such space, then a space too short for it. -/
theorem answersWith_space {answer : Answer} {id : BitVec 8} (TooShort : Nat → Prop)
    [Decidable (∃ x ∈ spaces s.params, x.1 = id ∧ TooShort x.2.2)]
    (hreserved : spaceOfId id = none → answer = .next (refused s .eSpace))
    (houtside : ∀ {sp}, spaceOfId id = some sp → TooShort (s.size sp) → answer = .next (refused s .eRange))
    (hlegal : ∀ {sp}, spaceOfId id = some sp → ¬ TooShort (s.size sp) → AnswersWith s answer .ok) :
    AnswersWith s answer
      (if 4 < id.toNat then .eSpace
        else if ∃ x ∈ spaces s.params, x.1 = id ∧ TooShort x.2.2 then .eRange else .ok) := by
  split
  next hid => exact .turnedDown (by decide) (hreserved (spaceOfId_reserved hid))
  next hid =>
    obtain ⟨sp, hsp⟩ := exists_spaceOfId hid
    split
    next hshort => exact .turnedDown (by decide) (houtside hsp ((exists_mem_spaces_iff hsp TooShort).mp hshort))
    next hfits => exact hlegal hsp (mt (exists_mem_spaces_iff hsp TooShort).mpr hfits)

theorem memRd_answersWith (id : BitVec 8) (a : Word) :
    AnswersWith s (exec (.memRd id a) s) (statusOf s (.memRd id a)) :=
  answersWith_space (· ≤ a.toNat) (exec_memRd_reserved · a) exec_memRd_outside
    fun hsp ha => .carriedOut (exec_memRd_legal hsp (Nat.lt_of_not_le ha))

theorem memWr_answersWith (id : BitVec 8) (a : Word) (b : Byte) :
    AnswersWith s (exec (.memWr id a b) s) (statusOf s (.memWr id a b)) :=
  answersWith_space (· ≤ a.toNat) (exec_memWr_reserved · a b) (exec_memWr_outside · · b)
    fun hsp ha => .carriedOut (exec_memWr_legal hsp (Nat.lt_of_not_le ha) b)

theorem crcBuf_answersWith (id : BitVec 8) (a n : Word) :
    AnswersWith s (exec (.crcBuf id a n) s) (statusOf s (.crcBuf id a n)) :=
  answersWith_space (· < a.toNat + n.toNat) (exec_crcBuf_reserved · a n) exec_crcBuf_outside
    fun hsp hn => .carriedOut (exec_crcBuf_legal hsp (Nat.le_of_not_lt hn))

/-! ## Registers -/

theorem regRd_answersWith (rn : BitVec 8) : AnswersWith s (exec (.regRd rn) s) (statusOf s (.regRd rn)) := by
  rw [statusOf]
  split
  next hrn =>
    obtain ⟨r, rfl⟩ := exists_number_eq hrn
    exact .carriedOut (exec_regRd_number r)
  next hrn => exact .turnedDown (by decide) (exec_regRd_reserved (regOfNumber_reserved hrn))

/-- `E_RO` before `E_REG` here and `E_REG` before `E_RO` in R183 are the same, as a read-only number is not reserved. -/
theorem regWr_answersWith (rn : BitVec 8) (v : Word) :
    AnswersWith s (exec (.regWr rn v) s) (statusOf s (.regWr rn v)) := by
  rw [statusOf]
  by_cases hrn : rn ∈ readOnlyNumbers ++ readWriteNumbers
  · obtain ⟨r, rfl⟩ := exists_number_eq hrn
    cases hrw : r.writable with
    | false =>
      rw [if_pos (r.number_mem_readOnlyNumbers.mpr hrw)]
      exact .turnedDown (by decide) (exec_regWr_readOnly hrw v)
    | true =>
      rw [if_neg (by simp [r.number_mem_readOnlyNumbers, hrw]),
        if_neg (not_not.mpr (r.number_mem_readWriteNumbers.mpr hrw))]
      split
      next hstate => exact .turnedDown (by decide) (exec_regWr_running hrw hstate v)
      next hstate => exact .carriedOut (exec_regWr_writable hrw hstate v)
  · obtain ⟨hro, hrw⟩ := not_or.mp (mt List.mem_append.mpr hrn)
    rw [if_neg hro, if_pos hrw]
    exact .turnedDown (by decide) (exec_regWr_reserved (regOfNumber_reserved hrn) v)

/-! ## Frames and notifications -/

/-- The one cause of an operation on a length (R122, R123, R126, R127). -/
theorem answersWith_length {answer : Answer} {n size : Nat}
    (houtside : size < n → answer = .next (refused s .eRange)) (hfits : n ≤ size → AnswersWith s answer .ok) :
    AnswersWith s answer (if size < n then .eRange else .ok) := by
  split
  next hlt => exact .turnedDown (by decide) (houtside hlt)
  next hle => exact hfits (Nat.le_of_not_lt hle)

theorem feBuild_answersWith (cmd : Byte) (len : BitVec 16) :
    AnswersWith s (exec (.feBuild cmd len) s) (statusOf s (.feBuild cmd len)) :=
  answersWith_length (buildFrame_refused · cmd) fun hlen => .carriedOut (buildFrame_eq_withFrame hlen cmd)

/-- A FRAME row answers as the build of its identifier (log entry 2). -/
theorem row_answersWith (c : CommandId) (len : BitVec 16) :
    AnswersWith s (exec (c.row len) s) (statusOf s (c.row len)) := by
  have hstatus : statusOf s (c.row len) = statusOf s (.feBuild c.code len) := by cases c <;> rfl
  rw [exec_row, hstatus]
  exact feBuild_answersWith c.code len

theorem feCheck_answersWith (n : Word) : AnswersWith s (exec (.feCheck n) s) (statusOf s (.feCheck n)) := by
  refine answersWith_length exec_feCheck_outside fun hn => ?_
  obtain hshort | hlong := Nat.lt_or_ge n.toNat 8
  · exact .carriedOut (exec_feCheck_short hn hshort)
  · exact .carriedOut (exec_feCheck_checked hn hlong rfl)

theorem decoded_eq_ok (s : State) (nd : NdRegs) (k : Word) :
    decoded s nd k = ok { s with regs := { s.regs with nd := nd } } k := rfl

theorem fdParse_answersWith (cmd : Byte) (n : Word) :
    AnswersWith s (exec (.fdParse cmd n) s) (statusOf s (.fdParse cmd n)) := by
  refine answersWith_length (exec_fdParse_outside · cmd) fun hn => ?_
  rw [exec_fdParse_inside hn, decoded_eq_ok]
  exact .carriedOut rfl

theorem fdNotify_answersWith (n : Word) : AnswersWith s (exec (.fdNotify n) s) (statusOf s (.fdNotify n)) := by
  obtain hshort | hlong := Nat.lt_or_ge n.toNat 3
  · refine answersWith_length exec_fdNotify_outside fun hn => ?_
    rw [exec_fdNotify_unidentified hn hshort, decoded_eq_ok]
    exact .carriedOut rfl
  · rw [exec_fdNotify_identified hlong]
    exact fdParse_answersWith (s.readByte .ntf 2) n

/-! ## Halftone -/

theorem htStart_answersWith : AnswersWith s (exec .htStart s) (statusOf s .htStart) := by
  rw [statusOf]
  split
  next hlegal => exact .carriedOut (exec_htStart_legal hlegal)
  next hillegal => exact .turnedDown (by decide) (exec_htStart_illegal hillegal)

theorem htConvert_answersWith : AnswersWith s (exec .htConvert s) (statusOf s .htConvert) := by
  rw [statusOf]
  split
  next hlegal => exact .carriedOut (exec_htConvert_legal hlegal)
  next hillegal => exact .turnedDown (by decide) (exec_htConvert_illegal hillegal)

/-- What does not step outside the raster, in RUN, steps in a running conversion. -/
theorem running_of_not_stepsOutsideRaster {i : Instr} (hi : i = .htStep ∨ i = .htRun) (h : ¬ StepsOutsideRaster s i)
    (hrun : s.regs.htState = .run) : Running s :=
  (running_iff s).mpr ⟨hrun, not_not.mp fun hout => h ⟨hi, hrun, hout⟩⟩

theorem htStep_answersWith (h : ¬ StepsOutsideRaster s .htStep) :
    AnswersWith s (exec .htStep s) (statusOf s .htStep) := by
  rw [statusOf]
  split
  next hrun => exact .carriedOut (exec_htStep_running (running_of_not_stepsOutsideRaster (.inl rfl) h hrun))
  next hstopped => exact .turnedDown (by decide) (exec_htStep_stopped hstopped)

theorem htRun_answersWith (h : ¬ StepsOutsideRaster s .htRun) : AnswersWith s (exec .htRun s) (statusOf s .htRun) := by
  rw [statusOf]
  split
  next hrun => exact .carriedOut (exec_htRun_running (running_of_not_stepsOutsideRaster (.inr rfl) h hrun))
  next hstopped => exact .turnedDown (by decide) (exec_htRun_stopped hstopped)

end operations

/-! ## All instructions -/

/-- Every instruction answers with the status of R182 and R183, but for the pixel steps outside the raster. -/
theorem exec_answersWith {s : State} {i : Instr} (h : ¬ StepsOutsideRaster s i) :
    AnswersWith s (exec i s) (statusOf s i) := by
  cases i with
  | nop => exact .carriedOut (nopDoesNothing.2 s)
  | sysReset => exact .carriedOut (exec_sysReset s)
  | regRd rn => exact regRd_answersWith rn
  | regWr rn v => exact regWr_answersWith rn v
  | memRd id a => exact memRd_answersWith id a
  | memWr id a b => exact memWr_answersWith id a b
  | crcClr => exact .carriedOut (crcClrClearsTheAccumulator.2 s)
  | crcByte b => exact .carriedOut (exec_crcByte s b)
  | crcBuf id a n => exact crcBuf_answersWith id a n
  | feBuild cmd len => exact feBuild_answersWith cmd len
  | feCheck n => exact feCheck_answersWith n
  | fdParse cmd n => exact fdParse_answersWith cmd n
  | fdNotify n => exact fdNotify_answersWith n
  | htStart => exact htStart_answersWith
  | htStep => exact htStep_answersWith h
  | htRun => exact htRun_answersWith h
  | htConvert => exact htConvert_answersWith
  | frameGetStatus len => exact row_answersWith .getStatus len
  | framePrintIntensity len => exact row_answersWith .printIntensity len
  | frameQueryCount len => exact row_answersWith .queryCount len
  | framePrint len => exact row_answersWith .print len
  | framePrintComplete len => exact row_answersWith .printComplete len
  | frameBatteryLevel len => exact row_answersWith .batteryLevel len
  | frameCancelPrint len => exact row_answersWith .cancelPrint len
  | framePrintDataFlush len => exact row_answersWith .printDataFlush len
  | frameGetPrintType len => exact row_answersWith .getPrintType len
  | frameGetVersion len => exact row_answersWith .getVersion len

/-- A pixel step outside the raster stops the machine (log entry 6). -/
theorem exec_stepsOutsideRaster {s : State} {i : Instr} (h : StepsOutsideRaster s i) :
    exec i s = .fault .sequencerOutsideRaster := by
  obtain ⟨rfl | rfl, hrun, hout⟩ := h
  · exact (if_neg (not_not.mpr hrun)).trans (if_neg hout)
  · exact (if_neg (not_not.mpr hrun)).trans (if_neg hout)

theorem not_stepsOutsideRaster_of_next {s t : State} {i : Instr} (h : exec i s = .next t) :
    ¬ StepsOutsideRaster s i := by
  intro hout
  rw [exec_stepsOutsideRaster hout] at h
  cases h

/-- Settles O46: a word that selects no operation is refused as reserved, and the invariant excludes the one case in
which an instruction has no status. -/
theorem statusOfEveryInstruction : Obligations.StatusOfEveryInstruction := by
  refine ⟨fun s w hsel => ?_, fun s i hinv => ?_⟩
  · obtain ⟨i, hi, -⟩ | hres := decodeOp_selects w
    · exact absurd hi.sel_mem hsel
    · exact ⟨_, step_present_reservedSelector hres, rfl⟩
  · obtain ⟨t, r, ht, hres, hrefused⟩ := (exec_answersWith (hinv.not_stepsOutsideRaster i)).exists_result
    exact ⟨t, r, ht, hres, fun hne => (hrefused hne).1⟩

/-- R70, R74: what a step on an operation word answers has a status. -/
theorem step_present_answersWith {s t : State} {w : OpWord} (h : step (s.present (.op w)) = .next t) :
    ∃ st, AnswersWith s (.next t) st := by
  rw [← h]
  obtain ⟨i, -, hdec⟩ | hres := decodeOp_selects w
  · rw [step_present (item := .op w) hdec] at h ⊢
    exact ⟨_, exec_answersWith (not_stepsOutsideRaster_of_next h)⟩
  · exact ⟨.eOp, .turnedDown (by decide) (step_present_reservedSelector hres)⟩

/-- Settles O47: an answer whose status is not OK is that of a refusal. -/
theorem refusedOperationChangesNothing : Obligations.RefusedOperationChangesNothing := by
  intro s t w res hstep hres hne
  obtain ⟨st, hst⟩ := step_present_answersWith hstep
  obtain ⟨t, r, ⟨rfl⟩, hresult, hrefused⟩ := hst.exists_result
  obtain rfl : res = { st := st, r := r } := Option.some.inj (hres.symm.trans hresult)
  exact hrefused hne

/-! ## What a status depends on -/

section congr
variable {s s' : State} (hregs : s'.regs = s.regs) (hparams : s'.params = s.params)
include hregs hparams

theorem stepsOutsideRaster_congr (i : Instr) : StepsOutsideRaster s' i ↔ StepsOutsideRaster s i := by
  simp only [StepsOutsideRaster, hregs, hparams]

/-- R182: every cause of a refusal is in the operands, the registers and the sizes. -/
theorem statusOf_congr (i : Instr) : statusOf s' i = statusOf s i := by
  obtain ⟨regs, mem, result, port, params, powerUp⟩ := s
  obtain ⟨regs', mem', result', port', params', powerUp'⟩ := s'
  cases hregs
  cases hparams
  cases i <;> rfl

end congr

/-- Settles O48: both whether an instruction answers and its status depend on the registers and the sizes only. -/
theorem noDataMakesAnOperationFail : Obligations.NoDataMakesAnOperationFail := by
  intro s s' t i hregs hparams h
  have hin := not_stepsOutsideRaster_of_next h
  have hin' := mt (stepsOutsideRaster_congr hregs hparams i).mp hin
  obtain ⟨u, r, hu, hres, -⟩ := (exec_answersWith hin).exists_result
  obtain ⟨t', r', ht', hres', -⟩ := (exec_answersWith hin').exists_result
  cases h.symm.trans hu
  exact ⟨t', ht', by simp [hres, hres', statusOf_congr hregs hparams]⟩

end Sys2Proof.Machine
end

section
/-! SUPPORT. The two resets (R200, R202), and the ways out of RUN. -/

namespace Sys2Proof.Machine

/-- Settles O10: power-on puts the model's reset values into the registers, and presents nothing. -/
theorem powerOnRegisterValues : Obligations.PowerOnRegisterValues :=
  ⟨⟨Regs.reset_eq_resetRegs, rfl⟩, fun p k => ⟨(State.powerOn_regs p k).trans Regs.reset_eq_resetRegs,
    State.powerOn_port p k⟩⟩

/-! ## The ways out of RUN -/

/-- The last pixel step of a conversion finishes it; every other one stays in RUN (R148). -/
theorem State.pixelStep_htState {s : State} (hrun : s.regs.htState = .run)
    (hraster : sequencerInRaster s.params s.regs) :
    s.pixelStep.regs.htState = .run ∨ s.pixelStep.regs.htState = .done := by
  rw [State.pixelStep_regs]
  exact (sequencerInRaster_advance hraster hrun).imp And.left And.left

theorem State.startBody_runBody_done {s : State} (hlegal : legalConfig s.params s.regs) :
    s.startBody.runBody.regs.htState = .done :=
  (State.runBody_done (by simp) (State.startBody_inRaster hlegal)).1

/-- R202: an effect that leaves RUN is the reset's, or one that finishes the conversion, perhaps a restarted one. -/
theorem Effect.leaves_run {s t : State} {i : Instr} (he : Effect s i t) (hrun : s.regs.htState = .run)
    (hleft : t.regs.htState ≠ .run) :
    (i = .sysReset ∧ t.regs.htState = .idle) ∨
      ((i = .htStep ∨ i = .htRun ∨ i = .htConvert) ∧ t.regs.htState = .done) := by
  cases he with
  | unchanged => exact absurd hrun hleft
  | reset => exact .inl ⟨rfl, rfl⟩
  | write v hnumber hrw hstate => exact absurd hrun hstate
  | store => exact absurd hrun hleft
  | crc => exact absurd hrun hleft
  | frame => exact absurd hrun hleft
  | notification => exact absurd hrun hleft
  | start => exact absurd (by simp) hleft
  | pixel _ hraster => exact .inr ⟨.inl rfl, (State.pixelStep_htState hrun hraster).resolve_left hleft⟩
  | run _ hraster => exact .inr ⟨.inr (.inl rfl), (State.runBody_done hrun hraster).1⟩
  | convert hlegal => exact .inr ⟨.inr (.inr rfl), State.startBody_runBody_done hlegal⟩

/-- Settles O49: `SYS.RESET` replaces the registers alone, by those of power-on; and an instruction that leaves RUN has
an effect that does, since the result word is no register. -/
theorem onlyResetAbandonsAConversion : Obligations.OnlyResetAbandonsAConversion := by
  refine ⟨fun s => ⟨_, exec_sysReset s, (State.powerOn_regs ..).symm, fun _ _ => rfl⟩, fun s t i hrun h hleft => ?_⟩
  obtain ⟨u, res, he, rfl⟩ := exec_leadsTo h
  exact he.leaves_run hrun hleft

end Sys2Proof.Machine
end
